-- ==== Sys2Proof/Word.lean ====
section
/-! DEFINITION. The plain bit widths of the codec's data (00_scope.md R7, R9): every value is unsigned. -/

namespace Sys2Proof

/-- One byte of a buffer, one 8-bit field, one character code of text (R7, R10). -/
abbrev Byte := BitVec 8

/-- A 32-bit control register as the host reads it (R23, R28 to R31). -/
abbrev Word := BitVec 32

end Sys2Proof
end

