-- ==== Sys2Proof/Config.lean ====
section
/-! DEFINITION. What the platform fixes (00_scope.md R8) and the values the spec leaves free (10_state.md R42). -/

namespace Sys2Proof

/-- HEX_CASE: the letter case of the hex digits the encoders emit (R8, D7). -/
inductive HexCase where
  | upper
  | lower
  deriving DecidableEq, Repr

/-- The parameters "the model takes as arguments" (R8). REG_MAP is not among them: locations are addressed
by name (R63, DESIGN CHOICE, log entry 9), as the spec allows. VAL_CAP and PT_CAP are fixed (`valCap`, `ptCap`). -/
structure Params where
  /-- HEX_CASE (D7). -/
  hexCase : HexCase
  /-- HEX_IN_LOWER: whether decoders accept `a` to `f` (D6). -/
  hexInLower : Bool
  /-- IBUF_SIZE: capacity of the input buffer in bytes (D16). -/
  ibufSize : Nat
  deriving DecidableEq, Repr

/-- The defaults of R8. -/
def Params.default : Params where
  hexCase := .upper
  hexInLower := true
  ibufSize := 131094

/-- OBUF_SIZE is exactly `2 * IBUF_SIZE` (R8, D16). -/
def Params.obufSize (p : Params) : Nat := 2 * p.ibufSize

/-- VAL_CAP: value bytes each property register holds (R8, D15). -/
def valCap : Nat := 255

/-- PT_CAP: entries in the property table (R8, D15). -/
def ptCap : Nat := 255

/-- FREE VALUE. The n-th "unspecified value" a host read returns (R42: "a model takes that value as a free draw";
R38 and S3 for a refused read). It has no body: no proof can see what it is. DESIGN CHOICE, log entry 3. -/
opaque Config.freeRead (n : Nat) : Word

end Sys2Proof
end

