-- ==== Sys2Proof/Syntax.lean ====
section
/-! DEFINITION. The ten operations of the opcode table (30_encoding.md R72). CMD8 has no operand fields (R70). -/

namespace Sys2Proof

/-- One constructor per row of the opcode table. An operation takes its operands from the registers and
buffers its rule names (R70), so no constructor carries data. -/
inductive Instr where
  /-- PCHK: construct (check) the Property in PR (R104). -/
  | pchk
  /-- PDEC: decode hex text in IBUF to the Property in PR (R105). -/
  | pdec
  /-- PENC: encode PR to binary in OBUF (R106). -/
  | penc
  /-- PENCH: encode PR to hex text in OBUF (R107). -/
  | pench
  /-- FDEC: decode hex text in IBUF to the Frame in FR and PT (R136). -/
  | fdec
  /-- FENC: encode FR and PT to binary in OBUF (R138). -/
  | fenc
  /-- FENCH: encode FR and PT to hex text in OBUF (R139). -/
  | fench
  /-- H2B: convert hex text in IBUF to bytes in OBUF (R161). -/
  | h2b
  /-- B2H: convert bytes in IBUF to hex text in OBUF (R162). -/
  | b2h
  /-- CLR: clear ERR and STATUS.HERR (R175). -/
  | clr
  deriving DecidableEq, Repr

end Sys2Proof
end

