-- ==== Sys2Proof/WellFormed.lean ====
section
/-! DEFINITION. The data model's values (Property and Frame, 10_state.md R32 to R37) and what makes a value, a parameter
set or an instruction well formed. -/

namespace Sys2Proof

/-- The source's Property `{ tag, length, value }` (R13, R33): EPC, PDC and EDT. -/
structure Property where
  tag : Byte
  length : Byte
  value : List Byte
  deriving DecidableEq, Repr

/-- The Property invariant "`length == value.size()`" (R33). -/
abbrev Property.WellFormed (p : Property) : Prop := p.length.toNat = p.value.length

/-- The header and count fields a frame carries on the wire (R34, R78). -/
structure Header where
  ehd1 : Byte
  ehd2 : Byte
  tid : BitVec 16
  seoj : BitVec 24
  deoj : BitVec 24
  esv : Byte
  opc : Byte
  deriving DecidableEq, Repr

/-- The source's Frame: a header and an ordered list of properties (R37). -/
structure Frame where
  header : Header
  props : List Property
  deriving DecidableEq, Repr

/-- The data-model invariants of a Frame (R37): `propertyCount == properties.size()` and every Property's own. -/
abbrev Frame.WellFormed (f : Frame) : Prop :=
  f.header.opc.toNat = f.props.length ∧ ∀ p ∈ f.props, p.WellFormed

/-- Legal parameters: IBUF_SIZE is at least 131094 (R8, D16), and `2 * IBUF_SIZE < 2^32`, so that no 32-bit length
register wraps (D30). -/
abbrev Params.WellFormed (p : Params) : Prop := 131094 ≤ p.ibufSize ∧ 2 * p.ibufSize < 2 ^ 32

/-- CMD8 has no operand fields (R70), so there is nothing in an instruction that could be ill formed. -/
abbrev Instr.WellFormed (_ : Instr) : Prop := True

end Sys2Proof
end

