-- ==== Sys2Proof/Machine/State.lean ====
section
/-! DEFINITION. The machine's state as plain data: the codec's registers and buffers (10_state.md R21 to R37, 20_memory.md R50 to
R54), its parameters (R8), the host agent (R20, R86) and the turns of the agents (R228). -/

namespace Sys2Proof.Machine

/-- A field of a property register (R32). -/
inductive PropField where
  | epc
  | pdc
  | vlen
  | val (j : Nat)
  deriving DecidableEq, Repr

/-- A field of the frame register file (R34). -/
inductive FrameField where
  | ehd1
  | ehd2
  | tid
  | seoj
  | deoj
  | esv
  | opc
  | nprop
  deriving DecidableEq, Repr

/-- A location as the host names it (R38, R63). An index outside its range, and `other`, name no location of the codec. -/
inductive Loc where
  | cmd
  | status
  | err
  | inLen
  | outLen
  | consumed
  | ibuf (i : Nat)
  | obuf (i : Nat)
  | pr (f : PropField)
  | fr (f : FrameField)
  | pt (i : Nat) (f : PropField)
  /-- "any other location" of R38's table. -/
  | other (n : Nat)
  deriving DecidableEq, Repr

/-- STATUS.STATE (R23). -/
inductive OpState where
  | idle
  | busy
  | doneOk
  | doneErr
  deriving DecidableEq, Repr

/-- ERR.CODE (R186): "No other CODE value is ever written." -/
inductive ErrCode where
  | none
  | malformedProperty
  | malformedFrame
  | propertyLengthMismatch
  | frameInvariant
  | malformedPayload
  | illegalOp
  deriving DecidableEq, Repr

/-- ERR.CAUSE (R187): "No other CAUSE value is ever written." -/
inductive Cause where
  | none
  | short
  | badHex
  | odd
  | mismatch
  deriving DecidableEq, Repr

/-- The ERR register, field by field (R28). The 32-bit word the host reads is `errWord`. -/
structure ErrReg where
  code : ErrCode
  cause : Cause
  inprop : Bool
  index : Byte
  deriving DecidableEq, Repr

/-- ERR = 0 (R191). -/
def ErrReg.zero : ErrReg := ⟨.none, .none, false, 0⟩

/-- Sparse data by index: (index, value) pairs, indices strictly rising. An index that is not listed is unwritten (R44). -/
abbrev Table (α : Type) := List (Nat × α)

/-- A byte array of the codec (IBUF, OBUF, a VAL array) as (address, byte) pairs. -/
abbrev Memory := List Host.Cell

/-- A property register (R32). `none` is the spec's "unwritten" (R44, R45; log entry 1), a value of the register that no read may return. -/
structure PropReg where
  epc : Option Byte
  pdc : Option Byte
  vlen : Option Byte
  val : Memory
  deriving DecidableEq, Repr

/-- A property register as reset leaves it: every field unwritten (R45). -/
def PropReg.unwritten : PropReg := ⟨none, none, none, []⟩

/-- The frame register file (R34). `none` is the spec's "unwritten" (R44, R45). -/
structure FrameReg where
  ehd1 : Option Byte
  ehd2 : Option Byte
  tid : Option (BitVec 16)
  seoj : Option (BitVec 24)
  deoj : Option (BitVec 24)
  esv : Option Byte
  opc : Option Byte
  nprop : Option Byte
  deriving DecidableEq, Repr

/-- The frame register file as reset leaves it: every field unwritten (R45). -/
def FrameReg.unwritten : FrameReg := ⟨none, none, none, none, none, none, none, none⟩

/-- One access or branch of the host's program, as it stands after its pseudo-statements are expanded (R86, R87). -/
inductive HostOp where
  /-- `WR loc, value`: the value is a number, because a write that does not fit its field is refused, not cut (R39). -/
  | wr (l : Loc) (v : Nat)
  /-- `RD loc`. -/
  | rd (l : Loc)
  /-- `name:` (labels are numbered: DESIGN CHOICE, log entry 5). -/
  | label (n : Nat)
  /-- `BR label`. -/
  | br (n : Nat)
  /-- `BRERR label`: if the most recent STATUS read showed STATE = DONE_ERR. -/
  | brErr (n : Nat)
  /-- `BRHERR label`: if the most recent STATUS read showed HERR = 1. -/
  | brHerr (n : Nat)
  /-- The branch back of `WAIT` (R87): to the operation before it, while the most recent STATUS read showed STATE = BUSY. -/
  | backIfBusy
  deriving DecidableEq, Repr

/-- The host (R20): "whatever writes the codec's inputs and issues operations" (R14). -/
structure HostAgent where
  /-- The host's program (R88: it is "not stored in the codec"). -/
  script : List HostOp
  /-- The index in `script` of the operation the host makes next. -/
  pos : Nat
  /-- The value of "the most recent STATUS read" (R86), if there was one. -/
  lastStatus : Option Word
  /-- The location and value of the most recent host read, if there was one. -/
  lastRead : Option (Loc × Word)
  deriving DecidableEq, Repr

/-- A host with no program that has read nothing. -/
def HostAgent.empty : HostAgent := ⟨[], 0, none, none⟩

/-- Who moves in a step: the engine or the host (R20), or the reset input (R215). -/
inductive Turn where
  | engine
  | host
  | reset
  deriving DecidableEq, Repr

/-- The whole machine. -/
structure State where
  /-- HEX_CASE, HEX_IN_LOWER, IBUF_SIZE (R8); no step changes them (DESIGN CHOICE, log entry 2). -/
  params : Params
  /-- PENDING_OP, read as CMD (R22, R26). -/
  pendingOp : Byte
  /-- STATUS.STATE (R23, R25). -/
  opState : OpState
  /-- STATUS.HERR (R23, R46). -/
  herr : Bool
  /-- ERR (R28). -/
  err : ErrReg
  /-- IN_LEN (R29). -/
  inLen : Word
  /-- OUT_LEN (R30). -/
  outLen : Word
  /-- CONSUMED (R31). -/
  consumed : Word
  /-- IBUF (R51). -/
  ibuf : Memory
  /-- OBUF (R52). -/
  obuf : Memory
  /-- PR (R32). -/
  pr : PropReg
  /-- FR (R34). -/
  fr : FrameReg
  /-- PT, by property index (R36); an entry that is not listed is wholly unwritten. -/
  pt : Table PropReg
  /-- The host agent (R20, R86; DESIGN CHOICE, log entry 5). -/
  host : HostAgent
  /-- Who moves next, in order (R228, S7). When it is empty, the engine moves if it is enabled, and otherwise the host
  (DESIGN CHOICE, log entry 4). -/
  turns : List Turn
  /-- THE MODEL'S OWN: how many free values have been handed out (DESIGN CHOICE, log entry 3). -/
  draws : Nat
  deriving DecidableEq, Repr

/-- Why the machine stops. -/
inductive Fault where
  /-- A read of a location nothing has written since reset (R44: "A model shall treat such a read as a fault, not as a value";
  R185, D31, S2).
  Raised by the engine when an operation reads an unwritten input, and by a host read while not BUSY. Safe. -/
  | unwritten (l : Loc)
  /-- The host's script branches to a label it does not have. Raised by the host agent only; no such script is one of R86's. Safe. -/
  | noLabel (n : Nat)
  deriving DecidableEq, Repr

/-- Why a step has no meaning in this model. -/
inductive Refusal where
  /-- The instruction has no meaning yet. Raised by a rejected arm of `exec` only (there is none now). Safe. -/
  | notModelled (mnemonic : String)
  deriving DecidableEq, Repr

/-- The machine right after reset with parameters `p` (R45, R215): the control registers at the values of R45, every data
location unwritten, a host with no program. -/
def State.resetWith (p : Params) : State where
  params := p
  pendingOp := 0x00#8
  opState := .idle
  herr := false
  err := .zero
  inLen := 0
  outLen := 0
  consumed := 0
  ibuf := []
  obuf := []
  pr := .unwritten
  fr := .unwritten
  pt := []
  host := .empty
  turns := []
  draws := 0

/-- The machine right after reset, with the default parameters of R8. -/
def State.reset : State := State.resetWith Params.default

end Sys2Proof.Machine
end

