-- ==== Sys2Proof/Machine/Ops.lean ====
section
/-! DEFINITION. The named operations over buffers and registers, and the two ways an operation completes (60_exceptions.md R190,
R191). -/

namespace Sys2Proof.Machine

/-! ### Sparse data: buffers, VAL arrays, the property table -/

/-- The canonical form of sparse data: indices strictly rising. -/
abbrev Table.wf {α : Type} (m : Table α) : Prop := m.Pairwise (fun a b => a.1 < b.1)

/-- The canonical form of a buffer: addresses strictly rising. An unlisted byte has no value (R44), so no entry can
equal what an unlisted address reads as. -/
abbrev Memory.wf (m : Memory) : Prop := Table.wf m

/-- The value at index `k`; `none` where nothing has been written (R44). This one definition says what an unlisted
address reads as: no value. -/
def Table.get {α : Type} : Table α → Nat → Option α
  | [], _ => none
  | (i, v) :: m, k => if i = k then some v else Table.get m k

/-- Write one value at index `k`. -/
def Table.put {α : Type} : Table α → Nat → α → Table α
  | [], k, v => [(k, v)]
  | (i, w) :: m, k, v =>
    if k < i then (k, v) :: (i, w) :: m
    else if k = i then (k, v) :: m
    else (i, w) :: Table.put m k v

/-- Values at the indices `i`, `i + 1`, ... -/
def Table.numbered {α : Type} (i : Nat) : List α → Table α
  | [] => []
  | v :: vs => (i, v) :: Table.numbered (i + 1) vs

/-- Write the values `vs` at the indices `[0..|vs|)` and leave every other index as it is: what every `commit` of R105 to
R162 does to its destination. -/
def Table.overwrite {α : Type} (m : Table α) (vs : List α) : Table α :=
  Table.numbered 0 vs ++ m.filter (fun c => vs.length ≤ c.1)

/-- The property register `PT[i]` (R36). -/
def ptEntry (t : Table PropReg) (i : Nat) : PropReg := (Table.get t i).getD .unwritten

/-! ### How a read or a check can end an operation -/

/-- Why a computation gives no value: an error `raise`d by the operation's rule (R11), or a read of an unwritten
location (R44). -/
inductive Halt (ε : Type) where
  | raised (e : ε)
  | unwritten (l : Loc)
  deriving DecidableEq, Repr

/-- A computation of an operation: a value, or why there is none. -/
abbrev Calc (ε α : Type) := Except (Halt ε) α

/-- The value of a location, which must have been written (R44). -/
def need {ε α : Type} (l : Loc) : Option α → Calc ε α
  | some v => .ok v
  | none => .error (.unwritten l)

/-- The `n` values `read j`, `read (j+1)`, ..., each of which must have been written (R44). -/
def needAll {ε α : Type} (loc : Nat → Loc) (read : Nat → Option α) (j : Nat) : Nat → Calc ε (List α)
  | 0 => .ok []
  | n + 1 =>
    match need (loc j) (read j) with
    | .error e => .error e
    | .ok v =>
      match needAll loc read (j + 1) n with
      | .error e => .error e
      | .ok vs => .ok (v :: vs)

/-- `c` with its error reported as `f` says. -/
def Calc.mapRaised {ε δ α : Type} (f : ε → δ) : Calc ε α → Calc δ α
  | .ok v => .ok v
  | .error (.raised e) => .error (.raised (f e))
  | .error (.unwritten l) => .error (.unwritten l)

/-! ### Completion -/

/-- Error completion (R190): `raise` writes STATE and ERR and nothing else. -/
def raiseErr (s : State) (e : ErrReg) : State := { s with opState := .doneErr, err := e }

/-- Success completion (R191): `t` holds the destinations of the operation's `commit`. -/
def succeed (t : State) : State := { t with opState := .doneOk, err := .zero }

/-- The completion of an operation as one atomic step (R27): `c` computes the result from the inputs, and `write` puts it
into its destinations. -/
def complete {α : Type} (s : State) (c : Calc ErrReg α) (write : α → State) : Host.Outcome State Fault Refusal :=
  match c with
  | .ok v => .next (succeed (write v))
  | .error (.raised e) => .next (raiseErr s e)
  | .error (.unwritten l) => .fault (.unwritten l)

/-- `OBUF[0..|bs|) <- bs; OUT_LEN <- |bs|` (R54). -/
def writeOut (s : State) (bs : List Byte) : State :=
  { s with obuf := Table.overwrite s.obuf bs, outLen := BitVec.ofNat 32 bs.length }

/-- A property register that takes a decoded Property: EPC, PDC, VLEN and `VAL[0..n)`; `VAL[n..255)` is never written (R105, R136). -/
def PropReg.load (r : PropReg) (p : Property) : PropReg where
  epc := some p.tag
  pdc := some p.length
  vlen := some p.length
  val := Table.overwrite r.val p.value

/-- FR takes a decoded header: NPROP is the header's OPC (R136). -/
def FrameReg.load (h : Header) : FrameReg where
  ehd1 := some h.ehd1
  ehd2 := some h.ehd2
  tid := some h.tid
  seoj := some h.seoj
  deoj := some h.deoj
  esv := some h.esv
  opc := some h.opc
  nprop := some h.opc

/-- The entries `PT[i]`, `PT[i+1]`, ... after each takes its decoded Property (R136). -/
def loadedEntries (t : Table PropReg) (i : Nat) : List Property → List PropReg
  | [] => []
  | p :: ps => (ptEntry t i).load p :: loadedEntries t (i + 1) ps

/-! ### Issue, refusal and reset -/

/-- An accepted write of `op` to CMD (R22): `PENDING_OP <- op; STATUS.STATE <- BUSY`. -/
def issue (s : State) (op : Byte) : State := { s with pendingOp := op, opState := .busy }

/-- A refused host access "changes no state except `STATUS.HERR <- 1`" (R38). -/
def refuseAccess (s : State) : State := { s with herr := true }

/-- The reset input (R215): every piece of the codec's state takes its value of R45. The parameters, the host and the
turns are not the codec's state, and stay. -/
def resetInput (s : State) : State :=
  { State.resetWith s.params with host := s.host, turns := s.turns, draws := s.draws }

end Sys2Proof.Machine
end

