-- ==== Sys2Proof/Machine/Control.lean ====
section
/-! DEFINITION. CLR and the completion of an illegal op code (43_control.md). -/

namespace Sys2Proof.Machine

/-- CLR (R175): `STATUS.HERR <- 0`; the success completion also clears ERR. It clears HERR whatever set it (DEDUCED, log
entry 8). -/
def execClr (s : State) : Host.Outcome State Fault Refusal :=
  complete s (.ok ()) (fun _ => { s with herr := false })

/-- The completion of an op code that selects no operation (R176): `raise IllegalOp(NONE, 0, 0)`. -/
def completeIllegal (s : State) : Host.Outcome State Fault Refusal :=
  complete s (.error (.raised ⟨.illegalOp, .none, false, 0⟩) : Calc ErrReg Unit) (fun _ => s)

end Sys2Proof.Machine
end

