-- ==== Sys2Proof/Machine/Operands.lean ====
section
/-! DEFINITION. The operands of the operations: the hex primitives (20_memory.md R57 to R59), the input text (R53), the wire forms
of a record and a header (30_encoding.md R75 to R83), and the reading of PR, FR and PT. -/

namespace Sys2Proof.Machine

/-! ### Hex primitives -/

/-- `hexval(c)` (R57): the digit value of a character code, or `none` for `invalid`. `lower` is HEX_IN_LOWER. -/
def hexval (lower : Bool) (c : Byte) : Option (BitVec 4) :=
  if 0x30#8 ≤ c ∧ c ≤ 0x39#8 then some ((c - 0x30#8).setWidth 4)
  else if 0x41#8 ≤ c ∧ c ≤ 0x46#8 then some ((c - 0x37#8).setWidth 4)
  else if 0x61#8 ≤ c ∧ c ≤ 0x66#8 ∧ lower = true then some ((c - 0x57#8).setWidth 4)
  else none

/-- The byte of two digits, the first the high nibble (R58): `16 * hi + lo`. -/
def hexPair (hi lo : BitVec 4) : Byte := hi ++ lo

/-- `hexdigit(v)` (R59). -/
def hexdigit (hc : HexCase) (v : BitVec 4) : Byte :=
  if v ≤ 9#4 then 0x30#8 + v.setWidth 8
  else
    match hc with
    | .upper => 0x41#8 + (v.setWidth 8 - 10#8)
    | .lower => 0x61#8 + (v.setWidth 8 - 10#8)

/-- `hex(s)` (R59): two digits per byte, the high nibble first. -/
def hex (hc : HexCase) : List Byte → List Byte
  | [] => []
  | b :: s => hexdigit hc (b.extractLsb' 4 4) :: hexdigit hc (b.extractLsb' 0 4) :: hex hc s

/-! ### The input text -/

/-- A text as its readers see it: the character at a position, `none` where it is unwritten. -/
abbrev Text := Nat → Option Byte

/-- IBUF (R51): it has IBUF_SIZE bytes, and there is nothing at an index beyond them. -/
def ibufText (s : State) : Text := fun i => if i < s.params.ibufSize then Table.get s.ibuf i else none

/-- One digit of the text at position `p`, which must be a hex digit: BADHEX if it is not (R187). -/
def readDigit (lower : Bool) (t : Text) (p : Nat) : Calc Cause (BitVec 4) :=
  match need (.ibuf p) (t p) with
  | .error e => .error e
  | .ok c =>
    match hexval lower c with
    | some v => .ok v
    | none => .error (.raised .badHex)

/-- `hexbyte(T, p)` (R58) where an invalid byte is BADHEX. It "stops at the first invalid digit" (R101, R131; DEDUCED,
log entry 6). -/
def readHexByte (lower : Bool) (t : Text) (p : Nat) : Calc Cause Byte :=
  match readDigit lower t p with
  | .error e => .error e
  | .ok hi =>
    match readDigit lower t (p + 1) with
    | .error e => .error e
    | .ok lo => .ok (hexPair hi lo)

/-- The `n` bytes whose hex digits start at position `p`, read in order. -/
def readHexBytes (lower : Bool) (t : Text) (p : Nat) : Nat → Calc Cause (List Byte)
  | 0 => .ok []
  | n + 1 =>
    match readHexByte lower t p with
    | .error e => .error e
    | .ok b =>
      match readHexBytes lower t (p + 2) n with
      | .error e => .error e
      | .ok bs => .ok (b :: bs)

/-! ### Wire forms -/

/-- A property record in binary (R75): `[EPC, PDC] ++ EDT`. -/
def recordBytes (p : Property) : List Byte := p.tag :: p.length :: p.value

/-- The records of a property list, "in list order" (R80). -/
def recordsBytes : List Property → List Byte
  | [] => []
  | p :: ps => recordBytes p ++ recordsBytes ps

/-- The 12-byte binary header, big-endian (R78, R83). -/
def headerBytes (h : Header) : List Byte :=
  [h.ehd1, h.ehd2,
   h.tid.extractLsb' 8 8, h.tid.extractLsb' 0 8,
   h.seoj.extractLsb' 16 8, h.seoj.extractLsb' 8 8, h.seoj.extractLsb' 0 8,
   h.deoj.extractLsb' 16 8, h.deoj.extractLsb' 8 8, h.deoj.extractLsb' 0 8,
   h.esv, h.opc]

/-- The binary frame (R80): header, then the records. -/
def frameBytes (f : Frame) : List Byte := headerBytes f.header ++ recordsBytes f.props

/-- Field assembly from the header bytes `b0` to `b11` (R82). It is only applied to the 12 bytes a header parse gives. -/
def headerOf (b : List Byte) : Header where
  ehd1 := b.getD 0 0
  ehd2 := b.getD 1 0
  tid := b.getD 2 0 ++ b.getD 3 0
  seoj := b.getD 4 0 ++ b.getD 5 0 ++ b.getD 6 0
  deoj := b.getD 7 0 ++ b.getD 8 0 ++ b.getD 9 0
  esv := b.getD 10 0
  opc := b.getD 11 0

/-! ### Reading the data registers -/

/-- EPC and `VAL[0..n)` of a property register as the Property of declared length `n` (R106, R137). `place` names the
register's fields. -/
def readProperty (place : PropField → Loc) (r : PropReg) (n : Byte) : Calc ErrReg Property :=
  match need (place .epc) r.epc with
  | .error e => .error e
  | .ok tag =>
    match needAll (fun j => place (.val j)) (Table.get r.val) 0 n.toNat with
    | .error e => .error e
    | .ok value => .ok ⟨tag, n, value⟩

/-- The construction check of R104: PDC if it equals VLEN, and otherwise PropertyLengthMismatch, located by `inprop` and `index`. -/
def checkedLength (place : PropField → Loc) (r : PropReg) (inprop : Bool) (index : Byte) : Calc ErrReg Byte :=
  match need (place .pdc) r.pdc with
  | .error e => .error e
  | .ok pdc =>
    match need (place .vlen) r.vlen with
    | .error e => .error e
    | .ok vlen =>
      if pdc = vlen then .ok pdc else .error (.raised ⟨.propertyLengthMismatch, .mismatch, inprop, index⟩)

/-- Every header field of FR but OPC, which the caller has read (R137). -/
def readHeader (r : FrameReg) (opc : Byte) : Calc ErrReg Header :=
  match need (.fr .ehd1) r.ehd1, need (.fr .ehd2) r.ehd2, need (.fr .tid) r.tid, need (.fr .seoj) r.seoj,
      need (.fr .deoj) r.deoj, need (.fr .esv) r.esv with
  | .ok ehd1, .ok ehd2, .ok tid, .ok seoj, .ok deoj, .ok esv => .ok ⟨ehd1, ehd2, tid, seoj, deoj, esv, opc⟩
  | .error e, _, _, _, _, _ => .error e
  | _, .error e, _, _, _, _ => .error e
  | _, _, .error e, _, _, _ => .error e
  | _, _, _, .error e, _, _ => .error e
  | _, _, _, _, .error e, _ => .error e
  | _, _, _, _, _, .error e => .error e

end Sys2Proof.Machine
end

