-- ==== Sys2Proof/Machine/Property.lean ====
section
/-! DEFINITION. The property operations PCHK, PDEC, PENC and PENCH (40_property.md). -/

namespace Sys2Proof.Machine

/-- The property decoder `pdec(T, L, p)` (R100, R101, R102): the Property that starts at cursor `p` of the text of length
`L`, and its consumed length. The checks are in the order of R192. -/
def pdec (lower : Bool) (t : Text) (L p : Nat) : Calc Cause (Property × Nat) :=
  if L - p < 4 then .error (.raised .short)
  else
    match readHexByte lower t p with
    | .error e => .error e
    | .ok tag =>
      match readHexByte lower t (p + 2) with
      | .error e => .error e
      | .ok n =>
        if L - p < 4 + 2 * n.toNat then .error (.raised .short)
        else
          match readHexBytes lower t (p + 4) n.toNat with
          | .error e => .error e
          | .ok value => .ok (⟨tag, n, value⟩, 4 + 2 * n.toNat)

/-- The binary record of the Property in PR (R106): PDC and VLEN are checked first, and EPC and VAL are read only if
they agree. -/
def prRecord (s : State) : Calc ErrReg (List Byte) :=
  match checkedLength .pr s.pr false 0 with
  | .error e => .error e
  | .ok n =>
    match readProperty .pr s.pr n with
    | .error e => .error e
    | .ok p => .ok (recordBytes p)

/-- PCHK (R104): construct a Property. Nothing is written but STATE and ERR. -/
def execPchk (s : State) : Host.Outcome State Fault Refusal :=
  complete s (checkedLength .pr s.pr false 0) (fun _ => s)

/-- PDEC (R105): decode a Property from hex text. A failure is MalformedProperty. -/
def execPdec (s : State) : Host.Outcome State Fault Refusal :=
  complete s
    ((pdec s.params.hexInLower (ibufText s) s.inLen.toNat 0).mapRaised (fun c => ⟨.malformedProperty, c, false, 0⟩))
    (fun r => { s with pr := s.pr.load r.1, consumed := BitVec.ofNat 32 r.2 })

/-- PENC (R106): encode a Property to binary. -/
def execPenc (s : State) : Host.Outcome State Fault Refusal :=
  complete s (prRecord s) (fun bytes => writeOut s bytes)

/-- PENCH (R107): encode a Property to hex text. -/
def execPench (s : State) : Host.Outcome State Fault Refusal :=
  complete s (prRecord s) (fun bytes => writeOut s (hex s.params.hexCase bytes))

end Sys2Proof.Machine
end

