-- ==== Sys2Proof/Machine/Frame.lean ====
section
/-! DEFINITION. The frame operations FDEC, FENC and FENCH (41_frame.md). -/

namespace Sys2Proof.Machine

/-- The property loop of `fdec` (R130, R132): `n` more properties, the next one number `i` at cursor `cur`. It gives the
properties and the final cursor. A failure carries the failing property's index (R133). -/
def pdecList (lower : Bool) (t : Text) (L i cur : Nat) : Nat → Calc ErrReg (List Property × Nat)
  | 0 => .ok ([], cur)
  | n + 1 =>
    match (pdec lower t L cur).mapRaised (fun c => (⟨.malformedFrame, c, true, BitVec.ofNat 8 i⟩ : ErrReg)) with
    | .error e => .error e
    | .ok (p, used) =>
      match pdecList lower t L (i + 1) (cur + used) n with
      | .error e => .error e
      | .ok (ps, last) => .ok (p :: ps, last)

/-- The frame decoder `fdec(T, L)` (R130, R131): the Frame at the start of the text and the final cursor. -/
def fdec (lower : Bool) (t : Text) (L : Nat) : Calc ErrReg (Frame × Nat) :=
  if L < 24 then .error (.raised ⟨.malformedFrame, .short, false, 0⟩)
  else
    match (readHexBytes lower t 0 12).mapRaised (fun c => (⟨.malformedFrame, c, false, 0⟩ : ErrReg)) with
    | .error e => .error e
    | .ok b =>
      match pdecList lower t L 0 24 (headerOf b).opc.toNat with
      | .error e => .error e
      | .ok (ps, cur) => .ok (⟨headerOf b, ps⟩, cur)

/-- The invariant checks of `fenc` on `PT[i]`, `PT[i+1]`, ..., `n` of them, in index order (R137). It gives their PDCs. -/
def checkEntries (t : Table PropReg) (i : Nat) : Nat → Calc ErrReg (List Byte)
  | 0 => .ok []
  | n + 1 =>
    match checkedLength (.pt i) (ptEntry t i) true (BitVec.ofNat 8 i) with
    | .error e => .error e
    | .ok len =>
      match checkEntries t (i + 1) n with
      | .error e => .error e
      | .ok lens => .ok (len :: lens)

/-- The properties `PT[i]`, `PT[i+1]`, ... with the declared lengths `lens`, read after every check has passed (R137). -/
def readEntries (t : Table PropReg) (i : Nat) : List Byte → Calc ErrReg (List Property)
  | [] => .ok []
  | len :: lens =>
    match readProperty (.pt i) (ptEntry t i) len with
    | .error e => .error e
    | .ok p =>
      match readEntries t (i + 1) lens with
      | .error e => .error e
      | .ok ps => .ok (p :: ps)

/-- The Frame held in FR and PT (R37), after the checks of `fenc` in their order (R137, R192): OPC against NPROP, then each
property; the remaining fields are read only when every check passes. -/
def heldFrame (s : State) : Calc ErrReg Frame :=
  match need (.fr .opc) s.fr.opc with
  | .error e => .error e
  | .ok opc =>
    match need (.fr .nprop) s.fr.nprop with
    | .error e => .error e
    | .ok nprop =>
      if opc = nprop then
        match checkEntries s.pt 0 nprop.toNat with
        | .error e => .error e
        | .ok lens =>
          match readHeader s.fr opc with
          | .error e => .error e
          | .ok h =>
            match readEntries s.pt 0 lens with
            | .error e => .error e
            | .ok ps => .ok ⟨h, ps⟩
      else .error (.raised ⟨.frameInvariant, .mismatch, false, 0⟩)

/-- FDEC (R136): decode a Frame from hex text. PT entries at OPC and above are not written. -/
def execFdec (s : State) : Host.Outcome State Fault Refusal :=
  complete s (fdec s.params.hexInLower (ibufText s) s.inLen.toNat)
    (fun r => { s with
      fr := FrameReg.load r.1.header
      pt := Table.overwrite s.pt (loadedEntries s.pt 0 r.1.props)
      consumed := BitVec.ofNat 32 r.2 })

/-- FENC (R138): encode the Frame to binary. -/
def execFenc (s : State) : Host.Outcome State Fault Refusal :=
  complete s (heldFrame s) (fun f => writeOut s (frameBytes f))

/-- FENCH (R139): encode the Frame to hex text. -/
def execFench (s : State) : Host.Outcome State Fault Refusal :=
  complete s (heldFrame s) (fun f => writeOut s (hex s.params.hexCase (frameBytes f)))

end Sys2Proof.Machine
end

