-- ==== Sys2Proof/Machine/Payload.lean ====
section
/-! DEFINITION. The payload conversions H2B and B2H (42_payload.md). -/

namespace Sys2Proof.Machine

/-- The conversion of H2B (R161) on a text of length `L`: odd length first (ODD), then the digits in text order (BADHEX). -/
def textBytes (lower : Bool) (t : Text) (L : Nat) : Calc ErrReg (List Byte) :=
  if L % 2 = 1 then .error (.raised ⟨.malformedPayload, .odd, false, 0⟩)
  else (readHexBytes lower t 0 (L / 2)).mapRaised (fun c => ⟨.malformedPayload, c, false, 0⟩)

/-- H2B (R161): convert hex text to bytes. -/
def execH2b (s : State) : Host.Outcome State Fault Refusal :=
  complete s (textBytes s.params.hexInLower (ibufText s) s.inLen.toNat)
    (fun bytes => { writeOut s bytes with consumed := s.inLen })

/-- B2H (R162): convert bytes to hex text. -/
def execB2h (s : State) : Host.Outcome State Fault Refusal :=
  complete s (needAll Loc.ibuf (ibufText s) 0 s.inLen.toNat)
    (fun bytes => { writeOut s (hex s.params.hexCase bytes) with consumed := s.inLen })

end Sys2Proof.Machine
end

