-- ==== Sys2Proof/Machine/Dispatch.lean ====
section
/-! DEFINITION. The meaning of each operation of the opcode table: its completion step (10_state.md R27). -/

namespace Sys2Proof.Machine

/-- The completion of operation `i` from the state `s` (R27). -/
def exec (i : Instr) (s : State) : Host.Outcome State Fault Refusal :=
  match i with
  | .pchk => Sys2Proof.Machine.execPchk s
  | .pdec => Sys2Proof.Machine.execPdec s
  | .penc => Sys2Proof.Machine.execPenc s
  | .pench => Sys2Proof.Machine.execPench s
  | .fdec => Sys2Proof.Machine.execFdec s
  | .fenc => Sys2Proof.Machine.execFenc s
  | .fench => Sys2Proof.Machine.execFench s
  | .h2b => Sys2Proof.Machine.execH2b s
  | .b2h => Sys2Proof.Machine.execB2h s
  | .clr => Sys2Proof.Machine.execClr s

end Sys2Proof.Machine
end

