-- ==== Sys2Proof/Decode.lean ====
section
/-! DEFINITION. The command decoder and encoder (30_encoding.md R70 to R74). -/

namespace Sys2Proof

/-- Why a CMD8 byte selects no operation. -/
inductive DecodeError where
  /-- The op code is one of the 246 values of R73. -/
  | illegalOp (op : Byte)
  deriving DecidableEq, Repr

/-- The op-code table of R72, row by row: OP and the operation it selects. -/
def opRows : List (Byte × Instr) :=
  [(0x01#8, .pchk), (0x02#8, .pdec), (0x03#8, .penc), (0x04#8, .pench),
   (0x11#8, .fdec), (0x12#8, .fenc), (0x13#8, .fench),
   (0x21#8, .h2b), (0x22#8, .b2h),
   (0x30#8, .clr)]

/-- The row of `rows` whose OP is `op`, if there is one. -/
def findOp (op : Byte) : List (Byte × Instr) → Option Instr
  | [] => none
  | (o, i) :: rows => if o = op then some i else findOp op rows

/-- The CMD8 decoder. It is total (R71): every byte selects one operation of R72 or is illegal (R73). -/
def decode (op : Byte) : Except DecodeError Instr :=
  match findOp op opRows with
  | some i => .ok i
  | none => .error (.illegalOp op)

/-- The op code of an operation, from the table of R72. -/
def encode : Instr → Byte
  | .pchk => 0x01#8
  | .pdec => 0x02#8
  | .penc => 0x03#8
  | .pench => 0x04#8
  | .fdec => 0x11#8
  | .fenc => 0x12#8
  | .fench => 0x13#8
  | .h2b => 0x21#8
  | .b2h => 0x22#8
  | .clr => 0x30#8

/-- The instruction the decoder reads from the bits `w`, numbered as the opcode table numbers them. CMD8 has one length,
8 bits (R74), so a number that does not fit a byte is no instruction. -/
def decodeTableWord (_nbits w : Nat) : Option Instr :=
  if w < 2 ^ 8 then (decode (BitVec.ofNat 8 w)).toOption else none

end Sys2Proof
end

