-- ==== Sys2Proof/Machine/Flags.lean ====
section
/-! DEFINITION. The STATUS and ERR registers as the words the host reads (10_state.md R23, R28; 60_exceptions.md R186, R187). -/

namespace Sys2Proof.Machine

/-- STATUS.STATE's encoding (R23). -/
def OpState.bits : OpState → BitVec 2
  | .idle => 0#2
  | .busy => 1#2
  | .doneOk => 2#2
  | .doneErr => 3#2

/-- ERR.CODE's encoding (R186). -/
def ErrCode.bits : ErrCode → BitVec 8
  | .none => 0x00#8
  | .malformedProperty => 0x01#8
  | .malformedFrame => 0x02#8
  | .propertyLengthMismatch => 0x03#8
  | .frameInvariant => 0x04#8
  | .malformedPayload => 0x05#8
  | .illegalOp => 0x06#8

/-- ERR.CAUSE's encoding (R187). -/
def Cause.bits : Cause → BitVec 4
  | .none => 0x0#4
  | .short => 0x1#4
  | .badHex => 0x2#4
  | .odd => 0x3#4
  | .mismatch => 0x4#4

/-- STATUS as the host reads it (R23): STATE in [1:0], HERR in [8], every other bit 0. -/
def statusWord (s : State) : Word := 0#23 ++ BitVec.ofBool s.herr ++ 0#6 ++ s.opState.bits

/-- ERR as the host reads it (R28): CODE in [7:0], CAUSE in [11:8], INPROP in [12], INDEX in [23:16], every other bit 0. -/
def errWord (e : ErrReg) : Word := 0#8 ++ e.index ++ 0#3 ++ BitVec.ofBool e.inprop ++ e.cause.bits ++ e.code.bits

/-- The STATE field of a STATUS word. -/
def statusState (w : Word) : BitVec 2 := w.extractLsb' 0 2

/-- The HERR field of a STATUS word. -/
def statusHerr (w : Word) : Bool := w.getLsbD 8

end Sys2Proof.Machine
end

