-- ==== Sys2Proof/Machine/Access.lean ====
section
/-! DEFINITION. The host's accesses to the codec: rights, typed writes, refusals and reads (10_state.md R38 to R44). -/

namespace Sys2Proof.Machine

/-- The width of a property field (R32). -/
def PropField.width : PropField → Nat
  | .epc | .pdc | .vlen | .val _ => 8

/-- The width of a frame field (R34, R35). -/
def FrameField.width : FrameField → Nat
  | .ehd1 | .ehd2 | .esv | .opc | .nprop => 8
  | .tid => 16
  | .seoj | .deoj => 24

/-- The width of a location (R61). What is no location has no width of its own, and a read of it is taken as 32 bits. -/
def Loc.width : Loc → Nat
  | .cmd | .ibuf _ | .obuf _ => 8
  | .pr f => f.width
  | .pt _ f => f.width
  | .fr f => f.width
  | .status | .err | .inLen | .outLen | .consumed | .other _ => 32

/-- A written value at a field's width, or `none` where it does not fit: "The codec never truncates a value to fit" (R39). -/
def fit (w v : Nat) : Option (BitVec w) := if v < 2 ^ w then some (BitVec.ofNat w v) else none

/-- A property register with one field written, or `none` where the write is refused (R39). -/
def PropReg.write (r : PropReg) (f : PropField) (v : Nat) : Option PropReg :=
  match f with
  | .epc => (fit 8 v).map fun b => { r with epc := some b }
  | .pdc => (fit 8 v).map fun b => { r with pdc := some b }
  | .vlen => (fit 8 v).map fun b => { r with vlen := some b }
  | .val j => if j < valCap then (fit 8 v).map fun b => { r with val := Table.put r.val j b } else none

/-- FR with one field written, or `none` where the write is refused (R35, R39). -/
def FrameReg.write (r : FrameReg) (f : FrameField) (v : Nat) : Option FrameReg :=
  match f with
  | .ehd1 => (fit 8 v).map fun b => { r with ehd1 := some b }
  | .ehd2 => (fit 8 v).map fun b => { r with ehd2 := some b }
  | .tid => (fit 16 v).map fun b => { r with tid := some b }
  | .seoj => (fit 24 v).map fun b => { r with seoj := some b }
  | .deoj => (fit 24 v).map fun b => { r with deoj := some b }
  | .esv => (fit 8 v).map fun b => { r with esv := some b }
  | .opc => (fit 8 v).map fun b => { r with opc := some b }
  | .nprop => (fit 8 v).map fun b => { r with nprop := some b }

/-- The state after a host write made while not BUSY, or `none` where it is refused (R38, R39, R41). -/
def writeLoc (s : State) (l : Loc) (v : Nat) : Option State :=
  match l with
  | .cmd => (fit 8 v).map fun op => issue s op
  | .inLen => if v ≤ s.params.ibufSize then (fit 32 v).map fun w => { s with inLen := w } else none
  | .ibuf i =>
    if i < s.params.ibufSize then (fit 8 v).map fun b => { s with ibuf := Table.put s.ibuf i b } else none
  | .pr f => (s.pr.write f v).map fun r => { s with pr := r }
  | .fr f => (s.fr.write f v).map fun r => { s with fr := r }
  | .pt i f =>
    if i < ptCap then ((ptEntry s.pt i).write f v).map fun r => { s with pt := Table.put s.pt i r } else none
  | .status | .err | .outLen | .consumed | .obuf _ | .other _ => none

/-- A host write (R38 to R41): while BUSY every write is refused, and a refused write sets HERR and changes nothing else. -/
def hostWrite (s : State) (l : Loc) (v : Nat) : State :=
  if s.opState = .busy then refuseAccess s
  else
    match writeLoc s l v with
    | some t => t
    | none => refuseAccess s

/-- The value of a property field; `none` where there is no such field (R39), `some none` where it is unwritten. -/
def PropReg.read (r : PropReg) (f : PropField) : Option (Option Word) :=
  match f with
  | .epc => some (r.epc.map (BitVec.setWidth 32))
  | .pdc => some (r.pdc.map (BitVec.setWidth 32))
  | .vlen => some (r.vlen.map (BitVec.setWidth 32))
  | .val j => if j < valCap then some ((Table.get r.val j).map (BitVec.setWidth 32)) else none

/-- The value of a field of FR; `none` where it is unwritten. -/
def FrameReg.read (r : FrameReg) (f : FrameField) : Option Word :=
  match f with
  | .ehd1 => r.ehd1.map (BitVec.setWidth 32)
  | .ehd2 => r.ehd2.map (BitVec.setWidth 32)
  | .tid => r.tid.map (BitVec.setWidth 32)
  | .seoj => r.seoj.map (BitVec.setWidth 32)
  | .deoj => r.deoj.map (BitVec.setWidth 32)
  | .esv => r.esv.map (BitVec.setWidth 32)
  | .opc => r.opc.map (BitVec.setWidth 32)
  | .nprop => r.nprop.map (BitVec.setWidth 32)

/-- The current value of a location, zero-extended to 32 bits (R9); `none` where there is no such location (R38), `some none`
where it is unwritten (R44). -/
def readLoc (s : State) (l : Loc) : Option (Option Word) :=
  match l with
  | .cmd => some (some (s.pendingOp.setWidth 32))
  | .status => some (some (statusWord s))
  | .err => some (some (errWord s.err))
  | .inLen => some (some s.inLen)
  | .outLen => some (some s.outLen)
  | .consumed => some (some s.consumed)
  | .ibuf i => if i < s.params.ibufSize then some ((Table.get s.ibuf i).map (BitVec.setWidth 32)) else none
  | .obuf i => if i < s.params.obufSize then some ((Table.get s.obuf i).map (BitVec.setWidth 32)) else none
  | .pr f => s.pr.read f
  | .fr f => some (s.fr.read f)
  | .pt i f => if i < ptCap then (ptEntry s.pt i).read f else none
  | .other _ => none

/-- The host receives the value `w` of location `l`. It changes nothing of the codec (R43). -/
def reply (s : State) (l : Loc) (w : Word) : State :=
  { s with host := { s.host with
      lastRead := some (l, w)
      lastStatus := if l = .status then some w else s.host.lastStatus } }

/-- The next free value, of the location's own width (R42, R61): nothing constrains it. -/
def freeValue (s : State) (l : Loc) : Word := BitVec.ofNat 32 ((Config.freeRead s.draws).toNat % 2 ^ l.width)

/-- The host receives an unspecified value for location `l` (R42, R38). -/
def replyFree (s : State) (l : Loc) : State := { reply s l (freeValue s l) with draws := s.draws + 1 }

/-- A host read (R38, R42, R43, R44). STATUS is exact at every moment. Any other read while BUSY gives a free value and is
not refused (R42), also of what is no location (R38 refuses it; DEDUCED, log entry 7) and of an unwritten location (R44 and R185
ask for a fault; DESIGN CHOICE, log entry 14). Otherwise a read of what is no location is refused, with a free value; a read of an unwritten
location is the fault R44 asks for; and every other read returns the current value. -/
def hostRead (s : State) (l : Loc) : Host.Outcome State Fault Refusal :=
  if l = .status then .next (reply s l (statusWord s))
  else if s.opState = .busy then .next (replyFree s l)
  else
    match readLoc s l with
    | none => .next (replyFree (refuseAccess s) l)
    | some none => .fault (.unwritten l)
    | some (some w) => .next (reply s l w)

end Sys2Proof.Machine
end

