-- ==== Sys2Proof/Machine/Script.lean ====
section
/-! DEFINITION. The host's program: the script statements and pseudo-statements (30_encoding.md R86 to R88) and one step of the
host. -/

namespace Sys2Proof.Machine

/-- The property register a `WRVAL` writes: PR or `PT[k]` (R86). -/
inductive PropSel where
  | pr
  | pt (k : Nat)
  deriving DecidableEq, Repr

/-- A statement of a host script, pseudo-statements included (R86, R87). Labels are numbers (DESIGN CHOICE, log entry 5). -/
inductive HostStmt where
  /-- `WR loc, value`. -/
  | wr (l : Loc) (v : Nat)
  /-- `WRBUF i, "text"`. -/
  | wrbufText (i : Nat) (text : List Char)
  /-- `WRBUF i, [b0, b1, ...]`. -/
  | wrbuf (i : Nat) (bytes : List Byte)
  /-- `WRVAL reg, [b0, ...]`. -/
  | wrval (r : PropSel) (bytes : List Byte)
  /-- `RD loc`. -/
  | rd (l : Loc)
  /-- `name:`. -/
  | label (n : Nat)
  /-- `BR label`. -/
  | br (n : Nat)
  /-- `BRERR label`. -/
  | brErr (n : Nat)
  /-- `BRHERR label`. -/
  | brHerr (n : Nat)
  /-- `ISSUE mnemonic`. -/
  | issue (i : Instr)
  /-- `ISSUE 0xnn`, for any op code. -/
  | issueCode (op : Byte)
  /-- `WAIT`. -/
  | wait
  /-- `RUN mnemonic`. -/
  | run (i : Instr)
  deriving DecidableEq, Repr

/-- The ASCII codes of a text, "one byte per character, with no terminator byte" (R88). -/
def asciiBytes (text : List Char) : List Byte := text.map fun c => BitVec.ofNat 8 c.toNat

/-- Writes of `bytes` to the locations `loc i`, `loc (i+1)`, ... one byte at a time (R61, R86). -/
def writesFrom (loc : Nat → Loc) (i : Nat) : List Byte → List HostOp
  | [] => []
  | b :: bs => .wr (loc i) b.toNat :: writesFrom loc (i + 1) bs

/-- `VAL[j]` of the register a `WRVAL` names. -/
def PropSel.valLoc : PropSel → Nat → Loc
  | .pr, j => .pr (.val j)
  | .pt k, j => .pt k (.val j)

/-- `WAIT` (R87): read STATUS, and go back to that read while STATE = BUSY. -/
def waitOps : List HostOp := [.rd .status, .backIfBusy]

/-- The accesses and branches a statement stands for (R86, R87). -/
def HostStmt.expand : HostStmt → List HostOp
  | .wr l v => [.wr l v]
  | .wrbufText i text => writesFrom Loc.ibuf i (asciiBytes text)
  | .wrbuf i bytes => writesFrom Loc.ibuf i bytes
  | .wrval r bytes => writesFrom r.valLoc 0 bytes
  | .rd l => [.rd l]
  | .label n => [.label n]
  | .br n => [.br n]
  | .brErr n => [.brErr n]
  | .brHerr n => [.brHerr n]
  | .issue i => [.wr .cmd (encode i).toNat]
  | .issueCode op => [.wr .cmd op.toNat]
  | .wait => waitOps
  | .run i => .wr .cmd (encode i).toNat :: waitOps

/-- A whole script, its pseudo-statements expanded (R87). -/
def expandScript (ss : List HostStmt) : List HostOp := ss.flatMap HostStmt.expand

/-- What a write carries across the host interface: the width of its location and the value (R88). -/
def HostOp.carries : HostOp → Option (Nat × Nat)
  | .wr l v => some (l.width, v)
  | .rd _ | .label _ | .br _ | .brErr _ | .brHerr _ | .backIfBusy => none

/-- The position of label `n` in a script whose first operation stands at position `at0`. Where a label is repeated, it is the
first one (R86 is silent; DESIGN CHOICE, log entry 5). -/
def labelPos (n at0 : Nat) : List HostOp → Option Nat
  | [] => none
  | op :: ops => if op = .label n then some at0 else labelPos n (at0 + 1) ops

/-- The host goes on at position `k` of its script. -/
def goTo (s : State) (k : Nat) : State := { s with host := { s.host with pos := k } }

/-- The host goes on with the next operation of its script. -/
def advance (s : State) : State := goTo s (s.host.pos + 1)

/-- The host goes on at label `n` if `taken`, and otherwise with its next operation. -/
def branch (s : State) (taken : Bool) (n : Nat) : Host.Outcome State Fault Refusal :=
  if taken then
    match labelPos n 0 s.host.script with
    | some k => .next (goTo s k)
    | none => .fault (.noLabel n)
  else .next (advance s)

/-- "the most recent STATUS read showed STATE = `st`" (R86); false where STATUS has not been read (DESIGN CHOICE, log entry 5). -/
def sawState (s : State) (st : OpState) : Bool :=
  match s.host.lastStatus with
  | some w => statusState w == st.bits
  | none => false

/-- "the most recent STATUS read showed HERR = 1" (R86); false where STATUS has not been read. -/
def sawHerr (s : State) : Bool :=
  match s.host.lastStatus with
  | some w => statusHerr w
  | none => false

/-- One operation of the host's script. -/
def runHostOp (op : HostOp) (s : State) : Host.Outcome State Fault Refusal :=
  match op with
  | .wr l v => .next (advance (hostWrite s l v))
  | .rd l => hostRead (advance s) l
  | .label _ => .next (advance s)
  | .br n => branch s true n
  | .brErr n => branch s (sawState s .doneErr) n
  | .brHerr n => branch s (sawHerr s) n
  | .backIfBusy => .next (if sawState s .busy then goTo s (s.host.pos - 1) else advance s)

/-- One step of the host: the next operation of its script, or nothing once the script has ended. -/
def hostStep (s : State) : Host.Outcome State Fault Refusal :=
  match s.host.script[s.host.pos]? with
  | some op => runHostOp op s
  | none => .next s

end Sys2Proof.Machine
end

