-- ==== Sys2Proof/Machine/Engine.lean ====
section
/-! DEFINITION. The engine's step and the turns of the agents (10_state.md R20, R25, R27; 70_reset_and_hazards.md R228). -/

namespace Sys2Proof.Machine

/-- The completion of the operation PENDING_OP names: its meaning, or IllegalOp where it names none (R176). -/
def completePending (s : State) : Host.Outcome State Fault Refusal :=
  match decode s.pendingOp with
  | .ok i => exec i s
  | .error _ => completeIllegal s

/-- The engine's turn: its completion is "enabled exactly when `STATE == BUSY`" (R27), and otherwise it does nothing. -/
def engineStep (s : State) : Host.Outcome State Fault Refusal :=
  if s.opState = .busy then completePending s else .next s

/-- What the agent whose turn it is does. -/
def takeTurn (t : Turn) (s : State) : Host.Outcome State Fault Refusal :=
  match t with
  | .engine => engineStep s
  | .host => hostStep s
  | .reset => .next (resetInput s)

/-- Who moves when no turn is listed: the engine when it is enabled, and otherwise the host (DESIGN CHOICE, log entry 4). -/
def defaultTurn (s : State) : Turn := if s.opState = .busy then .engine else .host

end Sys2Proof.Machine
end

