-- ==== Sys2Proof/Machine/Step.lean ====
section
/-! DEFINITION. One step of the machine, and the placing of an operation for the next step. -/

namespace Sys2Proof.Machine

/-- One step: the agent whose turn it is moves (R20, R27, R215). A listed turn is used up. -/
def step (s : State) : Host.Outcome State Fault Refusal :=
  match s.turns with
  | [] => takeTurn (defaultTurn s) s
  | t :: ts => takeTurn t { s with turns := ts }

/-- `s` with the op code `w` issued, as an accepted write of it to CMD issues it (R22), and with the engine to move next, so that
the next step is that operation's completion. The codec fetches nothing (R66): this is where a step finds its operation (DEDUCED, log
entry 10). -/
def State.withFetchWord (s : State) (_nbits w : Nat) : State := { issue s (BitVec.ofNat 8 w) with turns := [] }

end Sys2Proof.Machine
end

