-- ==== Sys2Proof/Safety.lean ====
section
/-! DEFINITION. The terms claims are stated in: the invariant of the machine, when a register file holds a Property or a Frame (10_state.md
R33, R37), and when a text spells bytes (20_memory.md R58). -/

namespace Sys2Proof.Machine

/-! ### The invariant -/

/-- The (CODE, CAUSE, INPROP) an operation may report, with INDEX = 0 where INPROP = 0 (R188, R189). -/
def MayReport (i : Instr) (e : ErrReg) : Prop :=
  e = .zero ∨
  match i with
  | .pchk | .penc | .pench => e = ⟨.propertyLengthMismatch, .mismatch, false, 0⟩
  | .pdec => e = ⟨.malformedProperty, .short, false, 0⟩ ∨ e = ⟨.malformedProperty, .badHex, false, 0⟩
  | .fdec =>
    e.code = .malformedFrame ∧ (e.cause = .short ∨ e.cause = .badHex) ∧ (e.inprop = false → e.index = 0)
  | .fenc | .fench =>
    e = ⟨.frameInvariant, .mismatch, false, 0⟩ ∨
    (e.code = .propertyLengthMismatch ∧ e.cause = .mismatch ∧ e.inprop = true)
  | .h2b => e = ⟨.malformedPayload, .odd, false, 0⟩ ∨ e = ⟨.malformedPayload, .badHex, false, 0⟩
  | .b2h | .clr => False

/-- ERR holds a value some completion writes (R189), IllegalOp's included. -/
def ErrReg.Legal (e : ErrReg) : Prop :=
  (∃ i, MayReport i e) ∨ e = ⟨.illegalOp, .none, false, 0⟩

/-- A byte array in canonical form that lies within `[0..size)`. -/
def Memory.Within (m : Memory) (size : Nat) : Prop := Memory.wf m ∧ ∀ c ∈ m, c.1 < size

/-- The property table in canonical form: indices below PT_CAP, no entry wholly unwritten (such an entry is not listed), every
VAL array in canonical form. -/
def PtWithin (t : Table PropReg) : Prop :=
  Table.wf t ∧ ∀ c ∈ t, c.1 < ptCap ∧ c.2 ≠ PropReg.unwritten ∧ Memory.Within c.2.val valCap

/-- The invariant of the machine: what holds after reset and every step keeps. -/
structure Inv (s : State) : Prop where
  /-- The parameters are legal (R8, D30). -/
  params : s.params.WellFormed
  /-- IN_LEN's legal values are 0 to IBUF_SIZE (R29). -/
  inLen : s.inLen.toNat ≤ s.params.ibufSize
  /-- OUT_LEN counts bytes of OBUF (R30, R52). -/
  outLen : s.outLen.toNat ≤ s.params.obufSize
  /-- CONSUMED counts bytes of IBUF (R31, R142). -/
  consumed : s.consumed.toNat ≤ s.params.ibufSize
  /-- IBUF is in canonical form, within IBUF_SIZE (R51). -/
  ibuf : Memory.Within s.ibuf s.params.ibufSize
  /-- OBUF is in canonical form, within OBUF_SIZE (R52). -/
  obuf : Memory.Within s.obuf s.params.obufSize
  /-- PR.VAL is in canonical form, within VAL_CAP (R32). -/
  pr : Memory.Within s.pr.val valCap
  /-- PT is in canonical form, within PT_CAP (R36). -/
  pt : PtWithin s.pt
  /-- ERR holds a legal value (R189). -/
  err : s.err.Legal
  /-- ERR = 0 in IDLE and after a success (R45, R191). -/
  errZero : s.opState = .idle ∨ s.opState = .doneOk → s.err = .zero
  /-- ERR names an error after an error (R190). -/
  errSet : s.opState = .doneErr → s.err.code ≠ .none

/-! ### Held values -/

/-- The property register holds the Property `p`: EPC, PDC, VLEN and `VAL[0..VLEN)` (R32, R33). -/
def PropReg.Holds (r : PropReg) (p : Property) : Prop :=
  p.WellFormed ∧ r.epc = some p.tag ∧ r.pdc = some p.length ∧ r.vlen = some p.length ∧
  ∀ j v, p.value[j]? = some v → Table.get r.val j = some v

/-- FR and `PT[0..NPROP)` hold the Frame `f` (R37). -/
def HoldsFrame (s : State) (f : Frame) : Prop :=
  f.WellFormed ∧ s.fr = FrameReg.load f.header ∧
  ∀ i p, f.props[i]? = some p → (ptEntry s.pt i).Holds p

/-! ### Host accesses and turns -/

/-- The host writes that are accepted while not BUSY (R38, R39, R41): the location is writable, its indices are in range, and the
value fits its width and its legal range. -/
def WriteAllowed (s : State) (l : Loc) (v : Nat) : Prop :=
  v < 2 ^ l.width ∧
  match l with
  | .cmd | .fr _ => True
  | .inLen => v ≤ s.params.ibufSize
  | .ibuf i => i < s.params.ibufSize
  | .pr (.val j) => j < 255
  | .pr _ => True
  | .pt i (.val j) => i < 255 ∧ j < 255
  | .pt i _ => i < 255
  | .status | .err | .outLen | .consumed | .obuf _ | .other _ => False

/-- Whose turn the next step is (R20, R215, R228). -/
def turnTaken (s : State) : Turn :=
  match s.turns with
  | [] => defaultTurn s
  | t :: _ => t

/-- The operation of its script the host makes on its next turn. -/
def nextOp (s : State) : Option HostOp := s.host.script[s.host.pos]?

/-- The host's next operation is an access the codec refuses (R38 to R41). -/
def RefusesNext (s : State) : Prop :=
  match nextOp s with
  | some (.wr l v) => s.opState = .busy ∨ ¬ WriteAllowed s l v
  | some (.rd l) => s.opState ≠ .busy ∧ readLoc s l = none
  | _ => False

/-! ### Texts -/

/-- The characters at positions `p` and `p + 1` of the text are the two hex digits of `b`, the high nibble first (R58). -/
def HexAt (lower : Bool) (t : Text) (p : Nat) (b : Byte) : Prop :=
  ∃ c d hi lo, t p = some c ∧ t (p + 1) = some d ∧
    hexval lower c = some hi ∧ hexval lower d = some lo ∧ b = hexPair hi lo

/-- The text spells the bytes `bs` in hex from position `p` on (R59). -/
def Spells (lower : Bool) (t : Text) (p : Nat) (bs : List Byte) : Prop :=
  ∀ k b, bs[k]? = some b → HexAt lower t (p + 2 * k) b

/-- Among the `n` characters from position `p` on there is one that is no hex digit, and every character before it is one:
the first invalid digit, with everything up to it written (R101, R131, R161). -/
def FirstBadWithin (lower : Bool) (t : Text) (p n : Nat) : Prop :=
  ∃ k, k < n ∧ (∃ c, t (p + k) = some c ∧ hexval lower c = none) ∧
    ∀ j, j < k → ∃ c v, t (p + j) = some c ∧ hexval lower c = some v

/-- The character at position `p + k` of the text is unwritten, and every character from `p` up to it is a hex digit: the first
unwritten character a decoder that reads on from `p` comes to (R44, R101, R131, R161). -/
def FirstUnwrittenAt (lower : Bool) (t : Text) (p k : Nat) : Prop :=
  t (p + k) = none ∧ ∀ j, j < k → ∃ c v, t (p + j) = some c ∧ hexval lower c = some v

/-- The texts an encoder emits are texts the decoders accept (R59, R108, R140): HEX_IN_LOWER is true or HEX_CASE is UPPER. -/
def CasesAgree (p : Params) : Prop := p.hexInLower = true ∨ p.hexCase = .upper

/-- The host has copied `OBUF[0..OUT_LEN)` of `t` to `IBUF[0..OUT_LEN)` of `u` and set IN_LEN to OUT_LEN (R108, R140), which it can
do when IBUF has that many bytes (R29, R39). -/
def CopiedOut (t u : State) : Prop :=
  t.outLen.toNat ≤ t.params.ibufSize ∧ u.params = t.params ∧ u.inLen = t.outLen ∧
  ∀ k, k < t.outLen.toNat → Table.get u.ibuf k = Table.get t.obuf k

/-- `norm`: a hex character with its letter digit in HEX_CASE, and every other character unchanged (R141). -/
def normChar (hc : HexCase) (c : Byte) : Byte :=
  match hc with
  | .upper => if 0x61#8 ≤ c ∧ c ≤ 0x66#8 then c - 0x20#8 else c
  | .lower => if 0x41#8 ≤ c ∧ c ≤ 0x46#8 then c + 0x20#8 else c

end Sys2Proof.Machine
end

