-- ==== Sys2Proof/Certificates/Slice0/Obligations.lean ====
section
/-! DEFINITION. The statements for the provers, each with the rule of spec/ it formalises. -/

open Sys2Proof Sys2Proof.Machine

/-! ### Decoding commands -/

/-- R72: every row of the op-code table decodes to its operation. -/
def Obligations.OpCodeTable : Prop :=
  decode 0x01#8 = .ok .pchk ∧ decode 0x02#8 = .ok .pdec ∧ decode 0x03#8 = .ok .penc ∧ decode 0x04#8 = .ok .pench ∧
  decode 0x11#8 = .ok .fdec ∧ decode 0x12#8 = .ok .fenc ∧ decode 0x13#8 = .ok .fench ∧
  decode 0x21#8 = .ok .h2b ∧ decode 0x22#8 = .ok .b2h ∧ decode 0x30#8 = .ok .clr

/-- R71, R72: decoding an operation's op code gives it back, and no other byte decodes to it. -/
def Obligations.DecodeOfEncode : Prop :=
  ∀ i : Instr, i.WellFormed → decode (encode i) = .ok i ∧ ∀ b, decode b = .ok i → b = encode i

/-- R73: the illegal op codes are exactly the listed values; writing one to CMD while not BUSY is accepted and enters BUSY like
any op code; its completion fails with IllegalOp. -/
def Obligations.IllegalOpCodes : Prop :=
  ∀ b : Byte,
    ((∃ e, decode b = .error e) ↔
      b.toNat = 0x00 ∨ (0x05 ≤ b.toNat ∧ b.toNat ≤ 0x10) ∨ (0x14 ≤ b.toNat ∧ b.toNat ≤ 0x20) ∨
      (0x23 ≤ b.toNat ∧ b.toNat ≤ 0x2F) ∨ (0x31 ≤ b.toNat ∧ b.toNat ≤ 0xFF)) ∧
    ∀ e, decode b = .error e → ∀ s : State, s.opState ≠ .busy →
      hostWrite s .cmd b.toNat = { s with pendingOp := b, opState := .busy } ∧
      engineStep { s with pendingOp := b, opState := .busy } =
        .next { s with pendingOp := b, opState := .doneErr, err := ⟨.illegalOp, .none, false, 0⟩ }

/-! ### The step -/

/-- R27: on the engine's turn while BUSY, a step is the completion of the operation PENDING_OP decodes to. The turn is the
engine's if it is listed as the next one, or if none is listed (log entry 4: the model's choice). -/
def Obligations.EngineTurnRunsTheDecodedOperation : Prop :=
  ∀ (s : State) (i : Instr), s.opState = .busy → decode s.pendingOp = .ok i →
    (s.turns = [] → step s = exec i s) ∧
    (∀ ts, s.turns = .engine :: ts → step s = exec i { s with turns := ts })

/-- R176: the completion of any op code that selects no operation raises IllegalOp, writes nothing but STATE and ERR, and ERR
reads 0x00000006; the write of such an op code to CMD while not BUSY does not set HERR. -/
def Obligations.IllegalOpCompletion : Prop :=
  (∀ (s : State) (e : DecodeError), s.opState = .busy → decode s.pendingOp = .error e → turnTaken s = .engine →
    step s = .next { s with
      opState := .doneErr, err := ⟨.illegalOp, .none, false, 0⟩, turns := s.turns.tail }) ∧
  errWord ⟨.illegalOp, .none, false, 0⟩ = 0x00000006#32 ∧
  ∀ (s : State) (b : Byte) (e : DecodeError), decode b = .error e → s.opState ≠ .busy →
    (hostWrite s .cmd b.toNat).herr = s.herr

/-- R27, R228: on the engine's turn while BUSY the operation ends, in DONE_OK or DONE_ERR, or the machine faults on an unwritten
location; it is never refused and never stays BUSY. -/
def Obligations.EngineTurnEndsTheOperation : Prop :=
  ∀ s : State, s.opState = .busy → turnTaken s = .engine →
    (∃ t, step s = .next t ∧ (t.opState = .doneOk ∨ t.opState = .doneErr) ∧ t.pendingOp = s.pendingOp) ∨
    ∃ l, step s = .fault (.unwritten l)

/-! ### Reset -/

/-- R45: the state after reset. -/
def Obligations.ResetState : Prop :=
  State.reset.pendingOp = 0x00#8 ∧ State.reset.opState = .idle ∧ State.reset.herr = false ∧
  State.reset.err = ⟨.none, .none, false, 0⟩ ∧ State.reset.inLen = 0 ∧ State.reset.outLen = 0 ∧
  State.reset.consumed = 0 ∧
  (∀ i, Table.get State.reset.ibuf i = none) ∧ (∀ i, Table.get State.reset.obuf i = none) ∧
  (State.reset.pr.epc = none ∧ State.reset.pr.pdc = none ∧ State.reset.pr.vlen = none ∧
    ∀ j, Table.get State.reset.pr.val j = none) ∧
  (State.reset.fr.ehd1 = none ∧ State.reset.fr.ehd2 = none ∧ State.reset.fr.tid = none ∧
    State.reset.fr.seoj = none ∧ State.reset.fr.deoj = none ∧ State.reset.fr.esv = none ∧
    State.reset.fr.opc = none ∧ State.reset.fr.nprop = none) ∧
  (∀ i, (ptEntry State.reset.pt i).epc = none ∧ (ptEntry State.reset.pt i).pdc = none ∧
    (ptEntry State.reset.pt i).vlen = none ∧ ∀ j, Table.get (ptEntry State.reset.pt i).val j = none)

/-- R215, R217: the reset input, at any time and also while BUSY, sets every piece of the codec's state to its value of R45; an
operation in progress is abandoned. That the parameters, the host's script and the turns stay is the model's (log entry 4). -/
def Obligations.ResetInput : Prop :=
  ∀ (s : State) (ts : List Turn), s.turns = .reset :: ts →
    step s = .next { State.reset with params := s.params, host := s.host, turns := ts, draws := s.draws }

/-- R219: the operations issued straight after reset. IN_LEN is 0, so PDEC and FDEC fail with SHORT, H2B and B2H succeed with
OUT_LEN = 0; FENC reads FR.OPC, which is unwritten. -/
def Obligations.OperationsAfterReset : Prop :=
  ∀ p : Params, let s := State.resetWith p
    exec .pdec s = .next { s with opState := .doneErr, err := ⟨.malformedProperty, .short, false, 0⟩ } ∧
    exec .fdec s = .next { s with opState := .doneErr, err := ⟨.malformedFrame, .short, false, 0⟩ } ∧
    exec .h2b s = .next { s with opState := .doneOk } ∧
    exec .b2h s = .next { s with opState := .doneOk } ∧
    exec .fenc s = .fault (.unwritten (.fr .opc))

/-! ### Property operations -/

/-- R104: op code 0x01 selects PCHK. PCHK succeeds when PDC = VLEN, raises PropertyLengthMismatch when they differ, changes
nothing else, reads neither EPC nor VAL, and faults when PDC or VLEN is unwritten. -/
def Obligations.PchkChecksConstruction : Prop :=
  decode 0x01#8 = .ok .pchk ∧ ∀ s : State,
    (∀ n, s.pr.pdc = some n → s.pr.vlen = some n →
      exec .pchk s = .next { s with opState := .doneOk, err := .zero }) ∧
    (∀ n m, s.pr.pdc = some n → s.pr.vlen = some m → n ≠ m →
      exec .pchk s =
        .next { s with opState := .doneErr, err := ⟨.propertyLengthMismatch, .mismatch, false, 0⟩ }) ∧
    ((s.pr.pdc = none ∨ s.pr.vlen = none) → ∃ l, exec .pchk s = .fault (.unwritten l))

/-- R105: on a text that spells a Property's record and is at least `4 + 2n` characters long, PDEC succeeds, whatever follows;
PR then holds that Property and CONSUMED is `4 + 2n`. -/
def Obligations.PdecDecodes : Prop :=
  ∀ (s : State) (p : Property), p.WellFormed → 4 + 2 * p.length.toNat ≤ s.inLen.toNat →
    Spells s.params.hexInLower (ibufText s) 0 (p.tag :: p.length :: p.value) →
    ∃ t, exec .pdec s = .next t ∧ t.opState = .doneOk ∧ t.err = .zero ∧ t.pr.Holds p ∧
      t.consumed.toNat = 4 + 2 * p.length.toNat

/-- R100, R102, R192: PDEC fails with SHORT below 4 characters; with BADHEX at an invalid tag or length digit; with SHORT below
`4 + 2n` characters; with BADHEX at an invalid value digit. It then writes nothing but STATE and ERR. Where the first character
that is no written digit is an unwritten one, it faults on it (R44). The model's own in these clauses: BADHEX at an invalid high
digit holds even where the low digit of its pair is unwritten (log entry 6), and a fault names the first unwritten character
(log entry 1). -/
def Obligations.PdecReportsShortAndBadHex : Prop :=
  ∀ s : State,
    let short := Host.Outcome.next
      { s with opState := .doneErr, err := ⟨.malformedProperty, .short, false, 0⟩ }
    let badHex := Host.Outcome.next
      { s with opState := .doneErr, err := ⟨.malformedProperty, .badHex, false, 0⟩ }
    (s.inLen.toNat < 4 → exec .pdec s = short) ∧
    (4 ≤ s.inLen.toNat → FirstBadWithin s.params.hexInLower (ibufText s) 0 4 → exec .pdec s = badHex) ∧
    (∀ k, 4 ≤ s.inLen.toNat → k < 4 → FirstUnwrittenAt s.params.hexInLower (ibufText s) 0 k →
      exec .pdec s = .fault (.unwritten (.ibuf k))) ∧
    (∀ tag n : Byte, 4 ≤ s.inLen.toNat → Spells s.params.hexInLower (ibufText s) 0 [tag, n] →
      (s.inLen.toNat < 4 + 2 * n.toNat → exec .pdec s = short) ∧
      (4 + 2 * n.toNat ≤ s.inLen.toNat →
        FirstBadWithin s.params.hexInLower (ibufText s) 4 (2 * n.toNat) → exec .pdec s = badHex) ∧
      (∀ k, 4 + 2 * n.toNat ≤ s.inLen.toNat → k < 2 * n.toNat →
        FirstUnwrittenAt s.params.hexInLower (ibufText s) 4 k → exec .pdec s = .fault (.unwritten (.ibuf (4 + k)))))

/-- R106: op code 0x03 selects PENC. PENC writes `[EPC, PDC] ++ VAL[0..PDC)` to OBUF when PR holds a Property; raises
PropertyLengthMismatch when PDC and VLEN differ, without reading VAL; and faults on an unwritten PDC or VLEN, and on an
unwritten EPC or `VAL[j]`, `j < PDC`, once the check passes. -/
def Obligations.PencEncodes : Prop :=
  decode 0x03#8 = .ok .penc ∧ ∀ s : State,
    (∀ p, s.pr.Holds p →
      ∃ t, exec .penc s = .next t ∧ t.opState = .doneOk ∧ t.err = .zero ∧
        t.outLen.toNat = 2 + p.length.toNat ∧
        (∀ k b, (p.tag :: p.length :: p.value)[k]? = some b → Table.get t.obuf k = some b) ∧
        ∀ k, 2 + p.length.toNat ≤ k → Table.get t.obuf k = Table.get s.obuf k) ∧
    (∀ n m, s.pr.pdc = some n → s.pr.vlen = some m → n ≠ m →
      exec .penc s =
        .next { s with opState := .doneErr, err := ⟨.propertyLengthMismatch, .mismatch, false, 0⟩ }) ∧
    (∀ n, s.pr.pdc = some n → s.pr.vlen = some n →
      (s.pr.epc = none ∨ ∃ j, j < n.toNat ∧ Table.get s.pr.val j = none) →
      ∃ l, exec .penc s = .fault (.unwritten l)) ∧
    ((s.pr.pdc = none ∨ s.pr.vlen = none) → ∃ l, exec .penc s = .fault (.unwritten l))

/-- R107: op code 0x04 selects PENCH. PENCH writes the hex text of the same record to OBUF, with the same errors and faults as
PENC. -/
def Obligations.PenchEncodes : Prop :=
  decode 0x04#8 = .ok .pench ∧ ∀ s : State,
    (∀ p, s.pr.Holds p →
      ∃ t, exec .pench s = .next t ∧ t.opState = .doneOk ∧ t.err = .zero ∧
        t.outLen.toNat = 4 + 2 * p.length.toNat ∧
        (∀ k c, (hex s.params.hexCase (p.tag :: p.length :: p.value))[k]? = some c →
          Table.get t.obuf k = some c) ∧
        ∀ k, 4 + 2 * p.length.toNat ≤ k → Table.get t.obuf k = Table.get s.obuf k) ∧
    (∀ n m, s.pr.pdc = some n → s.pr.vlen = some m → n ≠ m →
      exec .pench s =
        .next { s with opState := .doneErr, err := ⟨.propertyLengthMismatch, .mismatch, false, 0⟩ }) ∧
    (∀ n, s.pr.pdc = some n → s.pr.vlen = some n →
      (s.pr.epc = none ∨ ∃ j, j < n.toNat ∧ Table.get s.pr.val j = none) →
      ∃ l, exec .pench s = .fault (.unwritten l)) ∧
    ((s.pr.pdc = none ∨ s.pr.vlen = none) → ∃ l, exec .pench s = .fault (.unwritten l))

/-- R108: PENCH, a copy of its output to IBUF, and PDEC give the Property back, with CONSUMED = `4 + 2n`; and the output of
PENCH is the hex text of the output of PENC. -/
def Obligations.PropertyRoundTrip : Prop :=
  ∀ (s : State) (p : Property), s.params.WellFormed → s.pr.Holds p →
    ∃ t t', exec .pench s = .next t ∧ exec .penc s = .next t' ∧ t.opState = .doneOk ∧ t'.opState = .doneOk ∧
      (∀ bs : List Byte, bs.length = t'.outLen.toNat →
        (∀ k, k < bs.length → Table.get t'.obuf k = bs[k]?) →
        t.outLen.toNat = 2 * bs.length ∧
        ∀ k, k < t.outLen.toNat → Table.get t.obuf k = (hex s.params.hexCase bs)[k]?) ∧
      (CasesAgree s.params → ∀ u : State, CopiedOut t u →
        ∃ v, exec .pdec u = .next v ∧ v.opState = .doneOk ∧ v.pr.Holds p ∧
          v.consumed.toNat = 4 + 2 * p.length.toNat)

/-! ### Frame operations -/

/-- R136: on a text that begins with the hex of a frame's bytes (R78, R80: the twelve header bytes, then each record), FDEC
succeeds, whatever follows. FR then holds the header fields, `PT[0..OPC)` the properties in order, and CONSUMED is the frame's
hex length. -/
def Obligations.FdecDecodes : Prop :=
  ∀ (s : State) (h : Header) (ps : List Property), h.opc.toNat = ps.length → (∀ p ∈ ps, p.WellFormed) →
    let bytes : List Byte :=
      [h.ehd1, h.ehd2, h.tid.extractLsb' 8 8, h.tid.extractLsb' 0 8,
        h.seoj.extractLsb' 16 8, h.seoj.extractLsb' 8 8, h.seoj.extractLsb' 0 8,
        h.deoj.extractLsb' 16 8, h.deoj.extractLsb' 8 8, h.deoj.extractLsb' 0 8, h.esv, h.opc] ++
      ps.flatMap fun p => p.tag :: p.length :: p.value
    2 * bytes.length ≤ s.inLen.toNat → Spells s.params.hexInLower (ibufText s) 0 bytes →
    ∃ t, exec .fdec s = .next t ∧ t.opState = .doneOk ∧ t.err = .zero ∧ t.fr = {
      ehd1 := some h.ehd1, ehd2 := some h.ehd2, tid := some h.tid, seoj := some h.seoj, deoj := some h.deoj,
      esv := some h.esv, opc := some h.opc, nprop := some h.opc } ∧
      (∀ i p, ps[i]? = some p → (ptEntry t.pt i).Holds p) ∧ t.consumed.toNat = 2 * bytes.length

/-- R130, R131: FDEC fails with header SHORT below 24 characters, and otherwise with header BADHEX at an invalid header digit.
It then writes nothing but STATE and ERR. Where the first character that is no written digit is an unwritten one, it faults on
it (R44). The model's own in these clauses: BADHEX at an invalid high digit holds even where the low digit of its pair is
unwritten (log entry 6), and a fault names the first unwritten character (log entry 1). -/
def Obligations.FdecReportsHeaderErrors : Prop :=
  ∀ s : State,
    (s.inLen.toNat < 24 → exec .fdec s =
      .next { s with opState := .doneErr, err := ⟨.malformedFrame, .short, false, 0⟩ }) ∧
    (24 ≤ s.inLen.toNat → FirstBadWithin s.params.hexInLower (ibufText s) 0 24 → exec .fdec s =
      .next { s with opState := .doneErr, err := ⟨.malformedFrame, .badHex, false, 0⟩ }) ∧
    (∀ k, 24 ≤ s.inLen.toNat → k < 24 → FirstUnwrittenAt s.params.hexInLower (ibufText s) 0 k →
      exec .fdec s = .fault (.unwritten (.ibuf k)))

/-- R132, R133: where the text spells a header and the records of the first `i` properties, `i < OPC`, and what follows at
cursor `24 + sum (4 + 2 * n[k])` is too short or has an invalid digit, FDEC fails with MalformedFrame, that cause, INPROP = 1
and INDEX = `i`, and writes nothing but STATE and ERR. Where the first character there that is no written digit is an unwritten
one, it faults on it (R44). The model's own in these clauses: BADHEX at an invalid high digit holds even where the low digit of
its pair is unwritten (log entry 6), and a fault names the first unwritten character (log entry 1). -/
def Obligations.FdecReportsPropertyErrors : Prop :=
  ∀ (s : State) (h : Header) (ps : List Property),
    ps.length < h.opc.toNat → (∀ p ∈ ps, p.WellFormed) →
    Spells s.params.hexInLower (ibufText s) 0 (headerBytes h ++ recordsBytes ps) →
    let cur := 24 + (ps.map fun p => 4 + 2 * p.length.toNat).sum
    let fails := fun c : Cause => Host.Outcome.next
      { s with opState := .doneErr, err := ⟨.malformedFrame, c, true, BitVec.ofNat 8 ps.length⟩ }
    cur ≤ s.inLen.toNat →
    (s.inLen.toNat < cur + 4 → exec .fdec s = fails .short) ∧
    (cur + 4 ≤ s.inLen.toNat → FirstBadWithin s.params.hexInLower (ibufText s) cur 4 →
      exec .fdec s = fails .badHex) ∧
    (∀ k, cur + 4 ≤ s.inLen.toNat → k < 4 → FirstUnwrittenAt s.params.hexInLower (ibufText s) cur k →
      exec .fdec s = .fault (.unwritten (.ibuf (cur + k)))) ∧
    (∀ tag n : Byte, cur + 4 ≤ s.inLen.toNat → Spells s.params.hexInLower (ibufText s) cur [tag, n] →
      (s.inLen.toNat < cur + 4 + 2 * n.toNat → exec .fdec s = fails .short) ∧
      (cur + 4 + 2 * n.toNat ≤ s.inLen.toNat →
        FirstBadWithin s.params.hexInLower (ibufText s) (cur + 4) (2 * n.toNat) →
        exec .fdec s = fails .badHex) ∧
      (∀ k, cur + 4 + 2 * n.toNat ≤ s.inLen.toNat → k < 2 * n.toNat →
        FirstUnwrittenAt s.params.hexInLower (ibufText s) (cur + 4) k →
        exec .fdec s = .fault (.unwritten (.ibuf (cur + 4 + k)))))

/-- R138: FENC writes the binary frame held in FR and PT to OBUF: the twelve header bytes, big-endian (R78, R83), then the
record of each property in list order (R75, R80). -/
def Obligations.FencEncodes : Prop :=
  ∀ (s : State) (h : Header) (ps : List Property), h.opc.toNat = ps.length →
    s.fr = {
      ehd1 := some h.ehd1, ehd2 := some h.ehd2, tid := some h.tid, seoj := some h.seoj, deoj := some h.deoj,
      esv := some h.esv, opc := some h.opc, nprop := some h.opc } →
    (∀ i p, ps[i]? = some p → (ptEntry s.pt i).Holds p) →
    let bytes : List Byte :=
      [h.ehd1, h.ehd2, h.tid.extractLsb' 8 8, h.tid.extractLsb' 0 8,
        h.seoj.extractLsb' 16 8, h.seoj.extractLsb' 8 8, h.seoj.extractLsb' 0 8,
        h.deoj.extractLsb' 16 8, h.deoj.extractLsb' 8 8, h.deoj.extractLsb' 0 8, h.esv, h.opc] ++
      ps.flatMap fun p => p.tag :: p.length :: p.value
    ∃ t, exec .fenc s = .next t ∧ t.opState = .doneOk ∧ t.err = .zero ∧
      t.outLen.toNat = bytes.length ∧
      (∀ k b, bytes[k]? = some b → Table.get t.obuf k = some b) ∧
      ∀ k, bytes.length ≤ k → Table.get t.obuf k = Table.get s.obuf k

/-- R139: FENCH writes the hex text of the same bytes to OBUF. -/
def Obligations.FenchEncodes : Prop :=
  ∀ (s : State) (h : Header) (ps : List Property), h.opc.toNat = ps.length →
    s.fr = {
      ehd1 := some h.ehd1, ehd2 := some h.ehd2, tid := some h.tid, seoj := some h.seoj, deoj := some h.deoj,
      esv := some h.esv, opc := some h.opc, nprop := some h.opc } →
    (∀ i p, ps[i]? = some p → (ptEntry s.pt i).Holds p) →
    let bytes : List Byte :=
      [h.ehd1, h.ehd2, h.tid.extractLsb' 8 8, h.tid.extractLsb' 0 8,
        h.seoj.extractLsb' 16 8, h.seoj.extractLsb' 8 8, h.seoj.extractLsb' 0 8,
        h.deoj.extractLsb' 16 8, h.deoj.extractLsb' 8 8, h.deoj.extractLsb' 0 8, h.esv, h.opc] ++
      ps.flatMap fun p => p.tag :: p.length :: p.value
    ∃ t, exec .fench s = .next t ∧ t.opState = .doneOk ∧ t.err = .zero ∧
      t.outLen.toNat = 2 * bytes.length ∧
      (∀ k c, (hex s.params.hexCase bytes)[k]? = some c → Table.get t.obuf k = some c) ∧
      ∀ k, 2 * bytes.length ≤ k → Table.get t.obuf k = Table.get s.obuf k

/-- R137, R192: FENC and FENCH raise FrameInvariant where OPC and NPROP differ; otherwise PropertyLengthMismatch with INDEX `i`
for the lowest `i` whose PDC and VLEN differ. Nothing else is written. -/
def Obligations.FencAndFenchCheckInvariants : Prop :=
  ∀ (i : Instr) (s : State) (opc np : Byte), i = .fenc ∨ i = .fench →
    s.fr.opc = some opc → s.fr.nprop = some np →
    (opc ≠ np → exec i s =
      .next { s with opState := .doneErr, err := ⟨.frameInvariant, .mismatch, false, 0⟩ }) ∧
    (opc = np → ∀ k, k < np.toNat →
      (∀ j, j < k → ∃ n, (ptEntry s.pt j).pdc = some n ∧ (ptEntry s.pt j).vlen = some n) →
      (∃ n m, (ptEntry s.pt k).pdc = some n ∧ (ptEntry s.pt k).vlen = some m ∧ n ≠ m) →
      exec i s = .next { s with
        opState := .doneErr
        err := ⟨.propertyLengthMismatch, .mismatch, true, BitVec.ofNat 8 k⟩ })

/-- R44, R137: FENC and FENCH fault on an unwritten field exactly where they read one: OPC or NPROP; where those are equal, the
PDC or VLEN of an entry before which every entry agrees; and once every check has passed, a header field, an EPC or a value byte
of the frame. -/
def Obligations.FencAndFenchFaultOnUnwritten : Prop :=
  ∀ (i : Instr) (s : State), i = .fenc ∨ i = .fench →
    let agrees := fun j : Nat => ∃ n, (ptEntry s.pt j).pdc = some n ∧ (ptEntry s.pt j).vlen = some n
    (∃ l, exec i s = .fault (.unwritten l)) ↔
      s.fr.opc = none ∨ s.fr.nprop = none ∨
      ∃ np, s.fr.opc = some np ∧ s.fr.nprop = some np ∧
        ((∃ k, k < np.toNat ∧ (∀ j, j < k → agrees j) ∧
          ((ptEntry s.pt k).pdc = none ∨ (ptEntry s.pt k).vlen = none)) ∨
        ((∀ j, j < np.toNat → agrees j) ∧
          (s.fr.ehd1 = none ∨ s.fr.ehd2 = none ∨ s.fr.tid = none ∨ s.fr.seoj = none ∨ s.fr.deoj = none ∨
            s.fr.esv = none ∨
            ∃ k, k < np.toNat ∧ ((ptEntry s.pt k).epc = none ∨
              ∃ n j, (ptEntry s.pt k).pdc = some n ∧ j < n.toNat ∧ Table.get (ptEntry s.pt k).val j = none))))

/-- R140, the round-trip law: for any Frame held in FR and PT, FENCH, a copy of its output to IBUF, and FDEC succeed and give
the Frame back, with CONSUMED = OUT_LEN. -/
def Obligations.FrameRoundTrip : Prop :=
  ∀ (s : State) (f : Frame), s.params.WellFormed → CasesAgree s.params → HoldsFrame s f →
    ∃ t, exec .fench s = .next t ∧ t.opState = .doneOk ∧
      ∀ u : State, CopiedOut t u →
        ∃ v, exec .fdec u = .next v ∧ v.opState = .doneOk ∧ HoldsFrame v f ∧ v.fr = s.fr ∧
          v.consumed = t.outLen

/-- R141: after an FDEC that succeeds with CONSUMED = `c`, FENCH writes `norm(T[0..c))`: the decoded text with its letter digits
in HEX_CASE. And H2B of FENCH's output gives FENC's output. -/
def Obligations.DecodeThenEncodeNormalises : Prop :=
  ∀ s t : State, s.params.WellFormed → exec .fdec s = .next t → t.opState = .doneOk →
    ∃ u w, exec .fench t = .next u ∧ exec .fenc t = .next w ∧ u.opState = .doneOk ∧ w.opState = .doneOk ∧
      u.outLen = t.consumed ∧
      (∀ k, k < t.consumed.toNat → ∃ c, Table.get s.ibuf k = some c ∧
        Table.get u.obuf k = some (normChar s.params.hexCase c)) ∧
      (CasesAgree s.params → ∀ x : State, CopiedOut u x →
        ∃ y, exec .h2b x = .next y ∧ y.opState = .doneOk ∧ y.outLen = w.outLen ∧
          ∀ k, k < w.outLen.toNat → Table.get y.obuf k = Table.get w.obuf k)

/-! ### Payload conversion -/

/-- R161: op code 0x21 selects H2B. H2B converts a text of hex digits to its bytes; raises MalformedPayload ODD on odd length,
before any digit is read; and BADHEX at the first invalid digit. On failure nothing else is written. Where the first character
that is no written digit is an unwritten one, it faults on it (R44). The model's own in these clauses: BADHEX at an invalid high
digit holds even where the low digit of its pair is unwritten (log entry 6), and a fault names the first unwritten character
(log entry 1). -/
def Obligations.H2bConverts : Prop :=
  decode 0x21#8 = .ok .h2b ∧ ∀ s : State,
    (∀ bs : List Byte, s.inLen.toNat = 2 * bs.length → Spells s.params.hexInLower (ibufText s) 0 bs →
      ∃ t, exec .h2b s = .next t ∧ t.opState = .doneOk ∧ t.err = .zero ∧
        t.outLen.toNat = bs.length ∧ t.consumed = s.inLen ∧
        (∀ k b, bs[k]? = some b → Table.get t.obuf k = some b) ∧
        ∀ k, bs.length ≤ k → Table.get t.obuf k = Table.get s.obuf k) ∧
    (s.inLen.toNat % 2 = 1 → exec .h2b s =
      .next { s with opState := .doneErr, err := ⟨.malformedPayload, .odd, false, 0⟩ }) ∧
    (s.inLen.toNat % 2 = 0 → FirstBadWithin s.params.hexInLower (ibufText s) 0 s.inLen.toNat → exec .h2b s =
      .next { s with opState := .doneErr, err := ⟨.malformedPayload, .badHex, false, 0⟩ }) ∧
    (∀ k, s.inLen.toNat % 2 = 0 → k < s.inLen.toNat → FirstUnwrittenAt s.params.hexInLower (ibufText s) 0 k →
      exec .h2b s = .fault (.unwritten (.ibuf k)))

/-- R162: op code 0x22 selects B2H. B2H writes the hex text of `IBUF[0..IN_LEN)`, whatever the bytes; it has no error; it faults
on an unwritten input byte. -/
def Obligations.B2hConverts : Prop :=
  decode 0x22#8 = .ok .b2h ∧ ∀ s : State, s.params.WellFormed → s.inLen.toNat ≤ s.params.ibufSize →
    (∀ bs : List Byte, bs.length = s.inLen.toNat → (∀ k b, bs[k]? = some b → Table.get s.ibuf k = some b) →
      ∃ t, exec .b2h s = .next t ∧ t.opState = .doneOk ∧ t.err = .zero ∧
        t.outLen.toNat = 2 * s.inLen.toNat ∧ t.consumed = s.inLen ∧
        (∀ k c, (hex s.params.hexCase bs)[k]? = some c → Table.get t.obuf k = some c) ∧
        ∀ k, 2 * s.inLen.toNat ≤ k → Table.get t.obuf k = Table.get s.obuf k) ∧
    ((∃ k, k < s.inLen.toNat ∧ Table.get s.ibuf k = none) → ∃ l, exec .b2h s = .fault (.unwritten l))

/-- R163: B2H then H2B gives the bytes back; H2B then B2H gives back the text with its letter digits in HEX_CASE; for a Frame
that FENC encodes, H2B of FENCH's output is FENC's output and B2H of FENC's output is FENCH's output. -/
def Obligations.PayloadLaws : Prop :=
  ∀ s : State, s.params.WellFormed → CasesAgree s.params → s.inLen.toNat ≤ s.params.ibufSize →
    (∀ t u, exec .b2h s = .next t → CopiedOut t u →
      ∃ v, exec .h2b u = .next v ∧ v.opState = .doneOk ∧ v.outLen = s.inLen ∧
        ∀ k, k < s.inLen.toNat → Table.get v.obuf k = Table.get s.ibuf k) ∧
    (∀ t u, exec .h2b s = .next t → t.opState = .doneOk → CopiedOut t u →
      ∃ v, exec .b2h u = .next v ∧ v.opState = .doneOk ∧ v.outLen = s.inLen ∧
        ∀ k, k < s.inLen.toNat → ∃ c, Table.get s.ibuf k = some c ∧
          Table.get v.obuf k = some (normChar s.params.hexCase c)) ∧
    (∀ t, exec .fenc s = .next t → t.opState = .doneOk →
      ∃ t', exec .fench s = .next t' ∧ t'.opState = .doneOk ∧
        (∀ u, CopiedOut t' u → ∃ v, exec .h2b u = .next v ∧ v.opState = .doneOk ∧ v.outLen = t.outLen ∧
          ∀ k, k < t.outLen.toNat → Table.get v.obuf k = Table.get t.obuf k) ∧
        (∀ u, CopiedOut t u → ∃ v, exec .b2h u = .next v ∧ v.opState = .doneOk ∧ v.outLen = t'.outLen ∧
          ∀ k, k < t'.outLen.toNat → Table.get v.obuf k = Table.get t'.obuf k))

/-! ### Control -/

/-- R175: CLR clears HERR and ERR, always succeeds, and writes no data register, buffer, OUT_LEN or CONSUMED. -/
def Obligations.ClrClears : Prop :=
  ∀ s : State, exec .clr s = .next { s with opState := .doneOk, err := .zero, herr := false }

/-! ### Completions -/

/-- R190: an error completion, of an operation or of an illegal op code, writes exactly STATE and ERR, and names an error. -/
def Obligations.ErrorCompletionIsPrecise : Prop :=
  (∀ (i : Instr) (s t : State), exec i s = .next t → t.opState = .doneErr →
    t = { s with opState := .doneErr, err := t.err } ∧ t.err.code ≠ .none) ∧
  ∀ s t : State, completePending s = .next t → t.opState = .doneErr →
    t = { s with opState := .doneErr, err := t.err } ∧ t.err.code ≠ .none

/-- R189: the complete set of outcomes per operation, as (CODE, CAUSE, INPROP) with the numbers of R186 and R187. An operation
ends in DONE_OK with ERR = 0 or in DONE_ERR with one of its other outcomes; an illegal op code ends in DONE_ERR with its one
outcome. -/
def Obligations.OutcomeTable : Prop :=
  (∀ (s : State) (e : DecodeError), decode s.pendingOp = .error e →
    ∃ t, completePending s = .next t ∧ t.opState = .doneErr ∧
      (t.err.code.bits, t.err.cause.bits, t.err.inprop) = (0x06#8, 0#4, false)) ∧
  ∀ (i : Instr) (s t : State), exec i s = .next t →
    (t.opState = .doneOk ∧ errWord t.err = 0) ∨
    (t.opState = .doneErr ∧
      (t.err.code.bits, t.err.cause.bits, t.err.inprop) ∈
        match i with
        | .pchk | .penc | .pench => [(0x03#8, 4#4, false)]
        | .pdec => [(0x01#8, 1#4, false), (0x01#8, 2#4, false)]
        | .fdec => [(0x02#8, 1#4, false), (0x02#8, 2#4, false), (0x02#8, 1#4, true), (0x02#8, 2#4, true)]
        | .fenc | .fench => [(0x04#8, 4#4, false), (0x03#8, 4#4, true)]
        | .h2b => [(0x05#8, 3#4, false), (0x05#8, 2#4, false)]
        | .b2h | .clr => [])

/-- R188: in a report with INPROP = 0, INDEX is 0; INPROP = 1 is reported by FDEC, FENC and FENCH only. -/
def Obligations.IndexNeedsInprop : Prop :=
  ∀ (i : Instr) (s t : State), exec i s = .next t →
    (t.err.inprop = false → t.err.index = 0) ∧
    (t.err.inprop = true → i = .fdec ∨ i = .fenc ∨ i = .fench)

/-- R29, R51, R26, R46: a completion changes neither the parameters, PENDING_OP, IN_LEN, any byte of IBUF, nor the host and its
turns; and HERR only if the operation is CLR. -/
def Obligations.CompletionsLeaveInputs : Prop :=
  ∀ (i : Instr) (s t : State), exec i s = .next t →
    t.params = s.params ∧ t.pendingOp = s.pendingOp ∧ t.inLen = s.inLen ∧
    (∀ k, Table.get t.ibuf k = Table.get s.ibuf k) ∧
    t.host = s.host ∧ t.turns = s.turns ∧ t.draws = s.draws ∧ (i ≠ .clr → t.herr = s.herr)

/-- R30, R31: OUT_LEN is written only by a successful PENC, PENCH, FENC, FENCH, H2B or B2H, and CONSUMED only by a successful
PDEC, FDEC, H2B or B2H; CONSUMED never exceeds IN_LEN. -/
def Obligations.LengthRegisterWriters : Prop :=
  ∀ (i : Instr) (s t : State), exec i s = .next t →
    ((t.opState = .doneErr ∨ i = .pchk ∨ i = .pdec ∨ i = .fdec ∨ i = .clr) → t.outLen = s.outLen) ∧
    ((t.opState = .doneErr ∨ i = .pchk ∨ i = .penc ∨ i = .pench ∨ i = .fenc ∨ i = .fench ∨ i = .clr) →
      t.consumed = s.consumed) ∧
    (t.opState = .doneOk →
      (i = .pdec → 4 ≤ t.consumed.toNat ∧ t.consumed.toNat ≤ s.inLen.toNat) ∧
      (i = .fdec → 24 ≤ t.consumed.toNat ∧ t.consumed.toNat ≤ s.inLen.toNat) ∧
      (i = .h2b ∨ i = .b2h → t.consumed = s.inLen))

/-- R53: bytes of IBUF at IN_LEN and above are never read: with any other bytes there, every operation has the same outcome. -/
def Obligations.BytesBeyondInLenAreNotRead : Prop :=
  ∀ (i : Instr) (s : State) (m : Memory),
    (∀ k, k < s.inLen.toNat → Table.get m k = Table.get s.ibuf k) →
    exec i { s with ibuf := m } =
      match exec i s with
      | .next t => .next { t with ibuf := m }
      | .fault f => .fault f
      | .refused r => .refused r

/-- R54: a successful encode or convert operation writes exactly `OBUF[0..OUT_LEN)`; OBUF bytes at OUT_LEN and above keep what
they held. -/
def Obligations.OutputIsExactlyOutLenBytes : Prop :=
  ∀ (i : Instr) (s t : State), Inv s →
    i ∈ [Instr.penc, .pench, .fenc, .fench, .h2b, .b2h] → exec i s = .next t → t.opState = .doneOk →
    (∀ k, k < t.outLen.toNat → ∃ b, Table.get t.obuf k = some b) ∧
    ∀ k, t.outLen.toNat ≤ k → Table.get t.obuf k = Table.get s.obuf k

/-- R193: a host write refused while BUSY changes HERR alone and does not alter the outcome: the completion after it is the
completion without it, with HERR = 1 unless the operation is CLR (log entry 8). -/
def Obligations.RefusedWriteDoesNotAlterOutcome : Prop :=
  ∀ (i : Instr) (s : State) (l : Loc) (v : Nat), s.opState = .busy → i ≠ .clr →
    exec i (hostWrite s l v) =
      match exec i s with
      | .next t => .next { t with herr := true }
      | .fault f => .fault f
      | .refused r => .refused r

/-! ### Frames: what an operation leaves unchanged -/

/-- R104: PCHK stores nothing and changes no register but STATUS.STATE and ERR. -/
def Obligations.PchkFrame : Prop :=
  ∀ s t : State, exec .pchk s = .next t →
    t = { s with opState := t.opState, err := t.err } ∧
    (∀ k, Table.get t.ibuf k = Table.get s.ibuf k) ∧ (∀ k, Table.get t.obuf k = Table.get s.obuf k)

/-- R105: PDEC changes nothing but STATE, ERR, PR and CONSUMED; no byte of IBUF or OBUF; of PR.VAL only `VAL[0..VLEN)`, and only
on success. -/
def Obligations.PdecFrame : Prop :=
  ∀ s t : State, exec .pdec s = .next t →
    t = { s with opState := t.opState, err := t.err, pr := t.pr, consumed := t.consumed } ∧
    (t.opState = .doneErr → t.pr = s.pr ∧ t.consumed = s.consumed) ∧
    (∀ j n, t.opState = .doneOk → t.pr.vlen = some n → n.toNat ≤ j →
      Table.get t.pr.val j = Table.get s.pr.val j) ∧
    (∀ k, Table.get t.ibuf k = Table.get s.ibuf k) ∧ (∀ k, Table.get t.obuf k = Table.get s.obuf k)

/-- R136: FDEC changes nothing but STATE, ERR, FR, PT and CONSUMED; no byte of IBUF or OBUF; of PT only the entries below NPROP
and, in them, `VAL[0..VLEN)`, and only on success. -/
def Obligations.FdecFrame : Prop :=
  ∀ s t : State, exec .fdec s = .next t →
    t = { s with opState := t.opState, err := t.err, fr := t.fr, pt := t.pt, consumed := t.consumed } ∧
    (t.opState = .doneErr → t.fr = s.fr ∧ t.pt = s.pt ∧ t.consumed = s.consumed) ∧
    (t.opState = .doneOk → ∃ np, t.fr.nprop = some np ∧ t.fr.opc = some np ∧
      (∀ i, np.toNat ≤ i → ptEntry t.pt i = ptEntry s.pt i) ∧
      ∀ i, i < np.toNat → ∃ n, (ptEntry t.pt i).pdc = some n ∧ (ptEntry t.pt i).vlen = some n ∧
        ∀ j, n.toNat ≤ j → Table.get (ptEntry t.pt i).val j = Table.get (ptEntry s.pt i).val j) ∧
    (∀ k, Table.get t.ibuf k = Table.get s.ibuf k) ∧ (∀ k, Table.get t.obuf k = Table.get s.obuf k)

/-- R106, R107, R138, R139: PENC, PENCH, FENC and FENCH change nothing but STATE, ERR, OBUF and OUT_LEN; no byte of IBUF; of
OBUF only `[0..OUT_LEN)`, and only on success. -/
def Obligations.EncoderFrame : Prop :=
  ∀ (i : Instr) (s t : State), i ∈ [Instr.penc, .pench, .fenc, .fench] → exec i s = .next t →
    t = { s with opState := t.opState, err := t.err, obuf := t.obuf, outLen := t.outLen } ∧
    (t.opState = .doneErr → t.outLen = s.outLen) ∧
    (∀ k, Table.get t.ibuf k = Table.get s.ibuf k) ∧
    (∀ k, (t.opState = .doneOk → t.outLen.toNat ≤ k) → Table.get t.obuf k = Table.get s.obuf k)

/-- R161, R162: H2B and B2H change nothing but STATE, ERR, OBUF, OUT_LEN and CONSUMED; no byte of IBUF; of OBUF only
`[0..OUT_LEN)`, and only on success. -/
def Obligations.ConverterFrame : Prop :=
  ∀ (i : Instr) (s t : State), Inv s → i ∈ [Instr.h2b, .b2h] → exec i s = .next t →
    t = { s with opState := t.opState, err := t.err, obuf := t.obuf, outLen := t.outLen, consumed := t.consumed } ∧
    (t.opState = .doneErr → t.outLen = s.outLen ∧ t.consumed = s.consumed) ∧
    (∀ k, Table.get t.ibuf k = Table.get s.ibuf k) ∧
    (∀ k, (t.opState = .doneOk → t.outLen.toNat ≤ k) → Table.get t.obuf k = Table.get s.obuf k)

/-! ### Wire forms -/

/-- R57: the value `hexval` gives each character, and which are invalid. R58: the first digit of a byte is its high nibble, and
a pair with an invalid digit is BADHEX. R59: the digits `hexdigit` emits; `hex(s)` emits the high nibble first; `|hex(s)| = 2 *
|s|`; and reading the byte at character `2 * p` of `hex(s)` gives `s[p]`, in either letter case, if the decoders accept that
case. -/
def Obligations.HexTextReadsBack : Prop :=
  (∀ (lower : Bool) (c : Byte), (hexval lower c).map BitVec.toNat =
    if 0x30 ≤ c.toNat ∧ c.toNat ≤ 0x39 then some (c.toNat - 0x30)
    else if 0x41 ≤ c.toNat ∧ c.toNat ≤ 0x46 then some (c.toNat - 0x37)
    else if 0x61 ≤ c.toNat ∧ c.toNat ≤ 0x66 ∧ lower = true then some (c.toNat - 0x57)
    else none) ∧
  (∀ hi lo : BitVec 4, (hexPair hi lo).toNat = 16 * hi.toNat + lo.toNat) ∧
  (∀ (lower : Bool) (t : Text) (p : Nat) (c d : Byte), t p = some c → t (p + 1) = some d →
    (∀ hi lo, hexval lower c = some hi → hexval lower d = some lo →
      ∃ b, readHexByte lower t p = .ok b ∧ b.toNat = 16 * hi.toNat + lo.toNat) ∧
    (hexval lower c = none ∨ hexval lower d = none → readHexByte lower t p = .error (.raised .badHex))) ∧
  (∀ v : BitVec 4, (hexdigit .upper v).toNat = (if v.toNat ≤ 9 then 0x30 + v.toNat else 0x41 + (v.toNat - 10)) ∧
    (hexdigit .lower v).toNat = (if v.toNat ≤ 9 then 0x30 + v.toNat else 0x61 + (v.toNat - 10))) ∧
  ∀ (lower : Bool) (hc : HexCase) (bs : List Byte),
    hex hc bs = bs.flatMap (fun b =>
      [hexdigit hc (BitVec.ofNat 4 (b.toNat / 16)), hexdigit hc (BitVec.ofNat 4 (b.toNat % 16))]) ∧
    (hex hc bs).length = 2 * bs.length ∧
    (lower = true ∨ hc = .upper → ∀ p b, bs[p]? = some b →
      readHexByte lower (fun k => (hex hc bs)[k]?) (2 * p) = .ok b)

/-- R80, R81: a frame's binary form takes `12 + sum (2 + PDC)` bytes, from 12 to 65547, and its hex form `24 + sum (4 + 2 *
PDC)` characters, from 24 to 131094. -/
def Obligations.FrameLengths : Prop :=
  ∀ (f : Frame) (hc : HexCase), f.WellFormed →
    (frameBytes f).length = 12 + (f.props.map fun p => 2 + p.length.toNat).sum ∧
    12 ≤ (frameBytes f).length ∧ (frameBytes f).length ≤ 65547 ∧
    (hex hc (frameBytes f)).length = 24 + (f.props.map fun p => 4 + 2 * p.length.toNat).sum ∧
    24 ≤ (hex hc (frameBytes f)).length ∧ (hex hc (frameBytes f)).length ≤ 131094

/-! ### Host accesses -/

/-- R22: a CMD write of a byte while not BUSY issues it, whatever its value; while BUSY it is refused; a CMD read while not BUSY
returns PENDING_OP. -/
def Obligations.CmdWriteIssues : Prop :=
  ∀ (s : State) (v : Byte),
    (s.opState ≠ .busy → hostWrite s .cmd v.toNat = { s with pendingOp := v, opState := .busy }) ∧
    (s.opState = .busy → hostWrite s .cmd v.toNat = { s with herr := true }) ∧
    (s.opState ≠ .busy → ∃ t, hostRead s .cmd = .next t ∧
      t.host.lastRead = some (.cmd, s.pendingOp.setWidth 32))

/-- R40: on the host's turn while BUSY, a write of anything to any location is refused: it sets HERR and changes nothing else of
the codec. -/
def Obligations.BusyWritesAreRefused : Prop :=
  ∀ (s : State) (l : Loc) (v : Nat) (ts : List Turn), s.opState = .busy → s.turns = .host :: ts →
    nextOp s = some (.wr l v) →
    step s = .next { s with
      herr := true, turns := ts, host := { s.host with pos := s.host.pos + 1 } }

/-- R41: writes to STATUS, ERR, OUT_LEN, CONSUMED and OBUF are refused and set HERR. -/
def Obligations.ReadOnlyWritesAreRefused : Prop :=
  ∀ (s : State) (l : Loc) (v : Nat),
    (l = .status ∨ l = .err ∨ l = .outLen ∨ l = .consumed ∨ ∃ i, l = .obuf i) →
    hostWrite s l v = { s with herr := true }

/-- R38, R39, R62: while not BUSY, a write that is not allowed sets HERR and changes nothing else; an allowed write of a
location other than CMD makes that location read the value written, uncut, and every other location read as before. -/
def Obligations.TypedWrites : Prop :=
  ∀ (s : State) (l : Loc) (v : Nat), s.opState ≠ .busy →
    (¬ WriteAllowed s l v → hostWrite s l v = { s with herr := true }) ∧
    (WriteAllowed s l v → l ≠ .cmd →
      (∃ w : Word, readLoc (hostWrite s l v) l = some (some w) ∧ w.toNat = v) ∧
      (∀ k, k ≠ l → readLoc (hostWrite s l v) k = readLoc s k) ∧
      (hostWrite s l v).opState = s.opState ∧ (hostWrite s l v).herr = s.herr)

/-- R42: a STATUS read returns its exact value at every moment; any other read while BUSY returns some value, is not refused and
does not set HERR; while not BUSY a read returns the location's current value. That the clause about BUSY holds of what is no
location, and of an unwritten location, is the model's choice (log entries 7 and 14). -/
def Obligations.HostReads : Prop :=
  ∀ (s : State) (l : Loc),
    (∃ t, hostRead s .status = .next t ∧ t.host.lastRead = some (.status, statusWord s) ∧
      t.host.lastStatus = some (statusWord s)) ∧
    (l ≠ .status → s.opState = .busy →
      ∃ t w, hostRead s l = .next t ∧ t.host.lastRead = some (l, w) ∧ t.herr = s.herr) ∧
    (∀ w, s.opState ≠ .busy → readLoc s l = some (some w) →
      ∃ t, hostRead s l = .next t ∧ t.host.lastRead = some (l, w))

/-- R23, R28, R38, R39: what each location holds. STATUS has STATE in [1:0] and HERR in [8]; ERR has CODE in [7:0], CAUSE in
[11:8], INPROP in [12] and INDEX in [23:16], with the numbers of R186 and R187; every other bit of the two reads 0. Every other
location of R38's table reads its own register or byte, zero-extended, and there is no other location. -/
def Obligations.LocationValues : Prop :=
  ∀ s : State,
    let byte := fun b : Option Byte => some (b.map (BitVec.setWidth 32))
    ((statusWord s).extractLsb' 0 2 =
        (match s.opState with | .idle => 0#2 | .busy => 1#2 | .doneOk => 2#2 | .doneErr => 3#2) ∧
      (statusWord s).getLsbD 8 = s.herr ∧ ∀ k, 2 ≤ k → k ≠ 8 → (statusWord s).getLsbD k = false) ∧
    (∀ e : ErrReg,
      (errWord e).extractLsb' 0 8 =
        (match e.code with
          | .none => 0x00#8 | .malformedProperty => 0x01#8 | .malformedFrame => 0x02#8
          | .propertyLengthMismatch => 0x03#8 | .frameInvariant => 0x04#8 | .malformedPayload => 0x05#8
          | .illegalOp => 0x06#8) ∧
      (errWord e).extractLsb' 8 4 =
        (match e.cause with
          | .none => 0x0#4 | .short => 0x1#4 | .badHex => 0x2#4 | .odd => 0x3#4 | .mismatch => 0x4#4) ∧
      (errWord e).getLsbD 12 = e.inprop ∧ (errWord e).extractLsb' 16 8 = e.index ∧
      ∀ k, (13 ≤ k ∧ k < 16) ∨ 24 ≤ k → (errWord e).getLsbD k = false) ∧
    (readLoc s .cmd = byte (some s.pendingOp) ∧ readLoc s .status = some (some (statusWord s)) ∧
      readLoc s .err = some (some (errWord s.err)) ∧ readLoc s .inLen = some (some s.inLen) ∧
      readLoc s .outLen = some (some s.outLen) ∧ readLoc s .consumed = some (some s.consumed)) ∧
    (∀ i, readLoc s (.ibuf i) = (if i < s.params.ibufSize then byte (Table.get s.ibuf i) else none) ∧
      readLoc s (.obuf i) = (if i < 2 * s.params.ibufSize then byte (Table.get s.obuf i) else none) ∧
      readLoc s (.other i) = none) ∧
    (readLoc s (.pr .epc) = byte s.pr.epc ∧ readLoc s (.pr .pdc) = byte s.pr.pdc ∧
      readLoc s (.pr .vlen) = byte s.pr.vlen ∧
      ∀ j, readLoc s (.pr (.val j)) = if j < 255 then byte (Table.get s.pr.val j) else none) ∧
    (readLoc s (.fr .ehd1) = byte s.fr.ehd1 ∧ readLoc s (.fr .ehd2) = byte s.fr.ehd2 ∧
      readLoc s (.fr .tid) = some (s.fr.tid.map (BitVec.setWidth 32)) ∧
      readLoc s (.fr .seoj) = some (s.fr.seoj.map (BitVec.setWidth 32)) ∧
      readLoc s (.fr .deoj) = some (s.fr.deoj.map (BitVec.setWidth 32)) ∧
      readLoc s (.fr .esv) = byte s.fr.esv ∧ readLoc s (.fr .opc) = byte s.fr.opc ∧
      readLoc s (.fr .nprop) = byte s.fr.nprop) ∧
    ∀ i, let e := ptEntry s.pt i
      readLoc s (.pt i .epc) = (if i < 255 then byte e.epc else none) ∧
      readLoc s (.pt i .pdc) = (if i < 255 then byte e.pdc else none) ∧
      readLoc s (.pt i .vlen) = (if i < 255 then byte e.vlen else none) ∧
      ∀ j, readLoc s (.pt i (.val j)) = if i < 255 ∧ j < 255 then byte (Table.get e.val j) else none

/-- R43, R38: a read changes no state of the codec, but for HERR where it is refused, and then it sets HERR. -/
def Obligations.ReadsHaveNoSideEffect : Prop :=
  ∀ (s t : State) (l : Loc), hostRead s l = .next t →
    t = { s with host := t.host, draws := t.draws, herr := t.herr } ∧
    (t.host.script = s.host.script ∧ t.host.pos = s.host.pos) ∧
    t.herr = (s.herr || (decide (s.opState ≠ .busy) && decide (readLoc s l = none)))

/-- R44: a host read of an unwritten location while not BUSY is a fault of the model. -/
def Obligations.UnwrittenReadsFault : Prop :=
  ∀ (s : State) (l : Loc), s.opState ≠ .busy → readLoc s l = some none →
    hostRead s l = .fault (.unwritten l)

/-! ### The whole machine -/

/-- R25: STATE changes only by the listed transitions: the host's write of an op code to CMD while not BUSY, the engine's
completion without error and with error, and reset. -/
def Obligations.StateTransitions : Prop :=
  ∀ s t : State, step s = .next t →
    match turnTaken s with
    | .engine =>
      if s.opState = .busy then
        (t.opState = .doneOk ∧ t.err = .zero) ∨ (t.opState = .doneErr ∧ t.err.code ≠ .none)
      else t.opState = s.opState
    | .reset => t.opState = .idle
    | .host =>
      let issues := s.opState ≠ .busy ∧ ∃ v, nextOp s = some (.wr .cmd v) ∧ v < 256
      (issues → t.opState = .busy) ∧ (¬ issues → t.opState = s.opState)

/-- R26: while BUSY, PENDING_OP cannot change but by the reset input. -/
def Obligations.PendingOpIsFixedWhileBusy : Prop :=
  ∀ s t : State, s.opState = .busy → turnTaken s ≠ .reset → step s = .next t → t.pendingOp = s.pendingOp

/-- R46: HERR is set by every refused host access and cleared only by CLR and by reset. -/
def Obligations.HerrChanges : Prop :=
  ∀ s t : State, step s = .next t →
    match turnTaken s with
    | .engine => t.herr = (s.herr && !(decide (s.opState = .busy) && decide (decode s.pendingOp = .ok .clr)))
    | .reset => t.herr = false
    | .host => (RefusesNext s → t.herr = true) ∧ (¬ RefusesNext s → t.herr = s.herr)

/-- R8: no step changes the parameters, and only the host moves through its script. -/
def Obligations.ParametersAreFixed : Prop :=
  ∀ s t : State, step s = .next t →
    t.params = s.params ∧ t.host.script = s.host.script ∧ (turnTaken s ≠ .host → t.host = s.host)

/-- The invariant holds after reset, with any legal parameters. -/
def Obligations.ResetMeetsInvariant : Prop := ∀ p : Params, p.WellFormed → Inv (State.resetWith p)

/-- The invariant is kept by every step of every agent: the lengths stay legal (R29, R30, R31), every buffer stays in canonical
form within its size (R51, R52, R32, R36), and ERR agrees with STATE and the outcome table (R189 to R191). -/
def Obligations.StepKeepsInvariant : Prop := ∀ s t : State, Inv s → step s = .next t → Inv t

/-! ### The host's script -/

/-- R87: `ISSUE` is a write of the op code to CMD, `WAIT` a read of STATUS and a branch back to it while STATE = BUSY, and `RUN`
the two. -/
def Obligations.PseudoStatements : Prop :=
  ∀ i : Instr,
    HostStmt.expand (.issue i) = [.wr .cmd (encode i).toNat] ∧
    (∀ op : Byte, HostStmt.expand (.issueCode op) = [.wr .cmd op.toNat]) ∧
    HostStmt.expand (.run i) = HostStmt.expand (.issue i) ++ HostStmt.expand .wait ∧
    HostStmt.expand .wait = [.rd .status, .backIfBusy]

/-- R86, R87: on the host's turn, `BRERR` goes to its label when the most recent STATUS read showed DONE_ERR and otherwise on;
`BRHERR` when it showed HERR = 1; `BR` always; and the branch of `WAIT` goes back while it showed BUSY. No branch touches the
codec. -/
def Obligations.HostBranches : Prop :=
  ∀ (s : State) (ts : List Turn) (n k : Nat) (w : Word), s.turns = .host :: ts →
    s.host.lastStatus = some w → labelPos n 0 s.host.script = some k →
    let goes := fun pos : Nat => Host.Outcome.next { s with turns := ts, host := { s.host with pos := pos } }
    (nextOp s = some (.br n) → step s = goes k) ∧
    (nextOp s = some (.brErr n) →
      step s = goes (if w.extractLsb' 0 2 = 3#2 then k else s.host.pos + 1)) ∧
    (nextOp s = some (.brHerr n) → step s = goes (if w.getLsbD 8 = true then k else s.host.pos + 1)) ∧
    (nextOp s = some .backIfBusy →
      step s = goes (if w.extractLsb' 0 2 = 1#2 then s.host.pos - 1 else s.host.pos + 1))
end

