-- ==== Sys2Proof/Laws/Memory.lean ====
section
/-! SUPPORT. Reading after writing, and the canonical form, for the operations over sparse data. -/

namespace Sys2Proof.Machine

variable {α : Type}

@[simp] theorem Table.get_nil (k : Nat) : Table.get ([] : Table α) k = none := rfl

theorem Table.get_cons (i : Nat) (v : α) (m : Table α) (k : Nat) :
    Table.get ((i, v) :: m) k = if i = k then some v else Table.get m k := rfl

/-- A value that is read is listed. -/
theorem Table.mem_of_get {m : Table α} {k : Nat} {v : α} (h : Table.get m k = some v) : (k, v) ∈ m := by
  induction m with
  | nil => simp at h
  | cons c m ih =>
    obtain ⟨i, w⟩ := c
    rw [Table.get_cons] at h
    split at h
    · rename_i hik
      cases h
      simp [hik]
    · exact List.mem_cons_of_mem _ (ih h)

/-- In canonical form, what is listed is what is read. -/
theorem Table.get_of_mem {m : Table α} (hm : Table.wf m) {k : Nat} {v : α} (h : (k, v) ∈ m) :
    Table.get m k = some v := by
  induction m with
  | nil => simp at h
  | cons c m ih =>
    obtain ⟨i, w⟩ := c
    rw [Table.wf, List.pairwise_cons] at hm
    rcases List.mem_cons.1 h with h | h
    · cases h
      simp [Table.get_cons]
    · have : i < k := hm.1 _ h
      rw [Table.get_cons, if_neg (by omega)]
      exact ih hm.2 h

theorem Table.get_append (a b : Table α) (k : Nat) :
    Table.get (a ++ b) k = (Table.get a k).or (Table.get b k) := by
  induction a with
  | nil => simp
  | cons c a ih =>
    obtain ⟨i, w⟩ := c
    rw [List.cons_append, Table.get_cons, Table.get_cons, ih]
    split <;> simp

theorem Table.get_filter (p : Nat → Bool) (m : Table α) (k : Nat) :
    Table.get (m.filter (fun c => p c.1)) k = if p k then Table.get m k else none := by
  induction m with
  | nil => simp
  | cons c m ih =>
    obtain ⟨i, w⟩ := c
    rw [List.filter_cons]
    by_cases hi : p i = true
    · rw [if_pos hi, Table.get_cons, Table.get_cons, ih]
      by_cases hik : i = k
      · subst hik; simp [hi]
      · simp [hik]
    · rw [if_neg hi, ih, Table.get_cons]
      by_cases hik : i = k
      · subst hik; simp [hi]
      · simp [hik]

theorem Table.get_numbered (i : Nat) (vs : List α) (k : Nat) :
    Table.get (Table.numbered i vs) k = if i ≤ k then vs[k - i]? else none := by
  induction vs generalizing i with
  | nil => simp [Table.numbered]
  | cons v vs ih =>
    rw [Table.numbered, Table.get_cons, ih]
    by_cases h : i = k
    · subst h; simp
    · rw [if_neg h]
      by_cases h' : i ≤ k
      · obtain ⟨d, hd⟩ : ∃ d, k - i = d + 1 := ⟨k - i - 1, by omega⟩
        rw [if_pos (show i + 1 ≤ k by omega), if_pos h', hd, show k - (i + 1) = d by omega]
        simp
      · rw [if_neg (by omega), if_neg h']

/-- A read after an overwrite of `[0..|vs|)`: the new value below `|vs|`, the old one from there on. -/
theorem Table.get_overwrite (m : Table α) (vs : List α) (k : Nat) :
    Table.get (Table.overwrite m vs) k = if k < vs.length then vs[k]? else Table.get m k := by
  rw [Table.overwrite, Table.get_append, Table.get_numbered,
    Table.get_filter (fun i => decide (vs.length ≤ i))]
  by_cases h : k < vs.length
  · simp [h]
  · simp [h, Nat.le_of_not_lt h]

/-- A read after a write of one index. -/
theorem Table.get_put (m : Table α) (k : Nat) (v : α) (j : Nat) :
    Table.get (Table.put m k v) j = if k = j then some v else Table.get m j := by
  induction m with
  | nil => rfl
  | cons c m ih =>
    obtain ⟨i, w⟩ := c
    rw [Table.put]
    split
    · rw [Table.get_cons, Table.get_cons]
    · split
      · subst_vars
        simp only [Table.get_cons]
        split <;> rfl
      · rw [Table.get_cons, Table.get_cons, ih]
        by_cases hij : i = j
        · subst hij; simp [show ¬ k = i by assumption]
        · simp [hij]

theorem Table.numbered_bounds {i : Nat} {vs : List α} {c : Nat × α} (h : c ∈ Table.numbered i vs) :
    i ≤ c.1 ∧ c.1 < i + vs.length ∧ c.2 ∈ vs := by
  induction vs generalizing i with
  | nil => simp [Table.numbered] at h
  | cons v vs ih =>
    rw [Table.numbered, List.mem_cons] at h
    rcases h with rfl | h
    · simp
    · obtain ⟨h1, h2, h3⟩ := ih h
      simp only [List.length_cons, List.mem_cons]
      exact ⟨by omega, by omega, .inr h3⟩

theorem Table.numbered_wf (i : Nat) (vs : List α) : Table.wf (Table.numbered i vs) := by
  induction vs generalizing i with
  | nil => exact List.Pairwise.nil
  | cons v vs ih =>
    exact List.Pairwise.cons (fun c hc => (Table.numbered_bounds hc).1) (ih (i + 1))

/-- Overwriting keeps the canonical form. -/
theorem Table.overwrite_wf {m : Table α} (h : Table.wf m) (vs : List α) : Table.wf (Table.overwrite m vs) := by
  refine List.pairwise_append.2 ⟨Table.numbered_wf 0 vs, List.Pairwise.filter _ h, ?_⟩
  intro a ha b hb
  have h1 := (Table.numbered_bounds ha).2.1
  have h2 := (List.mem_filter.1 hb).2
  simp only [decide_eq_true_eq] at h2
  omega

/-- What an overwritten table lists: the new values at `[0..|vs|)`, and old entries from there on. -/
theorem Table.mem_overwrite {m : Table α} {vs : List α} {c : Nat × α} (h : c ∈ Table.overwrite m vs) :
    (c.1 < vs.length ∧ c.2 ∈ vs) ∨ c ∈ m := by
  rcases List.mem_append.1 h with h | h
  · obtain ⟨-, h2, h3⟩ := Table.numbered_bounds h
    exact .inl ⟨by omega, h3⟩
  · exact .inr (List.mem_filter.1 h).1

/-- What a table lists after a write of one index: the new value, and old entries. -/
theorem Table.mem_put {m : Table α} {k : Nat} {v : α} {c : Nat × α} (h : c ∈ Table.put m k v) :
    c = (k, v) ∨ c ∈ m := by
  induction m with
  | nil => exact .inl (by simpa [Table.put] using h)
  | cons d m ih =>
    obtain ⟨i, w⟩ := d
    rw [Table.put] at h
    split at h
    · simpa using h
    · split at h
      · rcases List.mem_cons.1 h with h | h
        · exact .inl h
        · exact .inr (List.mem_cons_of_mem _ h)
      · rcases List.mem_cons.1 h with h | h
        · exact .inr (by simp [h])
        · exact (ih h).imp_right (List.mem_cons_of_mem _)

/-- Writing one index keeps the canonical form. -/
theorem Table.put_wf {m : Table α} (h : Table.wf m) (k : Nat) (v : α) : Table.wf (Table.put m k v) := by
  induction m with
  | nil => exact List.pairwise_singleton _ _
  | cons c m ih =>
    obtain ⟨i, w⟩ := c
    have hc := List.pairwise_cons.1 h
    rw [Table.put]
    split
    · rename_i hk
      refine List.Pairwise.cons ?_ h
      intro d hd
      rcases List.mem_cons.1 hd with rfl | hd
      · exact hk
      · exact Nat.lt_trans hk (hc.1 d hd)
    · split
      · rename_i hki
        refine List.Pairwise.cons ?_ hc.2
        intro d hd
        have := hc.1 d hd
        simp only at this ⊢
        omega
      · refine List.Pairwise.cons ?_ (ih hc.2)
        intro d hd
        rcases Table.mem_put hd with rfl | hd
        · simp only; omega
        · exact hc.1 d hd

end Sys2Proof.Machine
end

