-- ==== Sys2Proof/Laws/State.lean ====
section
/-! SUPPORT. What each update of the state does to each field: one lemma per field per update. -/

namespace Sys2Proof.Machine

/-! Error completion (R190). -/

@[simp] theorem raiseErr_params (s : State) (e : ErrReg) : (raiseErr s e).params = s.params := rfl
@[simp] theorem raiseErr_pendingOp (s : State) (e : ErrReg) : (raiseErr s e).pendingOp = s.pendingOp := rfl
@[simp] theorem raiseErr_opState (s : State) (e : ErrReg) : (raiseErr s e).opState = .doneErr := rfl
@[simp] theorem raiseErr_herr (s : State) (e : ErrReg) : (raiseErr s e).herr = s.herr := rfl
@[simp] theorem raiseErr_err (s : State) (e : ErrReg) : (raiseErr s e).err = e := rfl
@[simp] theorem raiseErr_inLen (s : State) (e : ErrReg) : (raiseErr s e).inLen = s.inLen := rfl
@[simp] theorem raiseErr_outLen (s : State) (e : ErrReg) : (raiseErr s e).outLen = s.outLen := rfl
@[simp] theorem raiseErr_consumed (s : State) (e : ErrReg) : (raiseErr s e).consumed = s.consumed := rfl
@[simp] theorem raiseErr_ibuf (s : State) (e : ErrReg) : (raiseErr s e).ibuf = s.ibuf := rfl
@[simp] theorem raiseErr_obuf (s : State) (e : ErrReg) : (raiseErr s e).obuf = s.obuf := rfl
@[simp] theorem raiseErr_pr (s : State) (e : ErrReg) : (raiseErr s e).pr = s.pr := rfl
@[simp] theorem raiseErr_fr (s : State) (e : ErrReg) : (raiseErr s e).fr = s.fr := rfl
@[simp] theorem raiseErr_pt (s : State) (e : ErrReg) : (raiseErr s e).pt = s.pt := rfl
@[simp] theorem raiseErr_host (s : State) (e : ErrReg) : (raiseErr s e).host = s.host := rfl
@[simp] theorem raiseErr_turns (s : State) (e : ErrReg) : (raiseErr s e).turns = s.turns := rfl
@[simp] theorem raiseErr_draws (s : State) (e : ErrReg) : (raiseErr s e).draws = s.draws := rfl

/-! Success completion (R191). -/

@[simp] theorem succeed_params (s : State) : (succeed s).params = s.params := rfl
@[simp] theorem succeed_pendingOp (s : State) : (succeed s).pendingOp = s.pendingOp := rfl
@[simp] theorem succeed_opState (s : State) : (succeed s).opState = .doneOk := rfl
@[simp] theorem succeed_herr (s : State) : (succeed s).herr = s.herr := rfl
@[simp] theorem succeed_err (s : State) : (succeed s).err = .zero := rfl
@[simp] theorem succeed_inLen (s : State) : (succeed s).inLen = s.inLen := rfl
@[simp] theorem succeed_outLen (s : State) : (succeed s).outLen = s.outLen := rfl
@[simp] theorem succeed_consumed (s : State) : (succeed s).consumed = s.consumed := rfl
@[simp] theorem succeed_ibuf (s : State) : (succeed s).ibuf = s.ibuf := rfl
@[simp] theorem succeed_obuf (s : State) : (succeed s).obuf = s.obuf := rfl
@[simp] theorem succeed_pr (s : State) : (succeed s).pr = s.pr := rfl
@[simp] theorem succeed_fr (s : State) : (succeed s).fr = s.fr := rfl
@[simp] theorem succeed_pt (s : State) : (succeed s).pt = s.pt := rfl
@[simp] theorem succeed_host (s : State) : (succeed s).host = s.host := rfl
@[simp] theorem succeed_turns (s : State) : (succeed s).turns = s.turns := rfl
@[simp] theorem succeed_draws (s : State) : (succeed s).draws = s.draws := rfl

/-! The output of an encode or convert operation (R54). -/

@[simp] theorem writeOut_params (s : State) (bs : List Byte) : (writeOut s bs).params = s.params := rfl
@[simp] theorem writeOut_pendingOp (s : State) (bs : List Byte) : (writeOut s bs).pendingOp = s.pendingOp := rfl
@[simp] theorem writeOut_opState (s : State) (bs : List Byte) : (writeOut s bs).opState = s.opState := rfl
@[simp] theorem writeOut_herr (s : State) (bs : List Byte) : (writeOut s bs).herr = s.herr := rfl
@[simp] theorem writeOut_err (s : State) (bs : List Byte) : (writeOut s bs).err = s.err := rfl
@[simp] theorem writeOut_inLen (s : State) (bs : List Byte) : (writeOut s bs).inLen = s.inLen := rfl
@[simp] theorem writeOut_outLen (s : State) (bs : List Byte) : (writeOut s bs).outLen = BitVec.ofNat 32 bs.length := rfl
@[simp] theorem writeOut_consumed (s : State) (bs : List Byte) : (writeOut s bs).consumed = s.consumed := rfl
@[simp] theorem writeOut_ibuf (s : State) (bs : List Byte) : (writeOut s bs).ibuf = s.ibuf := rfl
@[simp] theorem writeOut_obuf (s : State) (bs : List Byte) : (writeOut s bs).obuf = Table.overwrite s.obuf bs := rfl
@[simp] theorem writeOut_pr (s : State) (bs : List Byte) : (writeOut s bs).pr = s.pr := rfl
@[simp] theorem writeOut_fr (s : State) (bs : List Byte) : (writeOut s bs).fr = s.fr := rfl
@[simp] theorem writeOut_pt (s : State) (bs : List Byte) : (writeOut s bs).pt = s.pt := rfl
@[simp] theorem writeOut_host (s : State) (bs : List Byte) : (writeOut s bs).host = s.host := rfl
@[simp] theorem writeOut_turns (s : State) (bs : List Byte) : (writeOut s bs).turns = s.turns := rfl
@[simp] theorem writeOut_draws (s : State) (bs : List Byte) : (writeOut s bs).draws = s.draws := rfl

/-! An accepted write to CMD (R22). -/

@[simp] theorem issue_params (s : State) (op : Byte) : (issue s op).params = s.params := rfl
@[simp] theorem issue_pendingOp (s : State) (op : Byte) : (issue s op).pendingOp = op := rfl
@[simp] theorem issue_opState (s : State) (op : Byte) : (issue s op).opState = .busy := rfl
@[simp] theorem issue_herr (s : State) (op : Byte) : (issue s op).herr = s.herr := rfl
@[simp] theorem issue_err (s : State) (op : Byte) : (issue s op).err = s.err := rfl
@[simp] theorem issue_inLen (s : State) (op : Byte) : (issue s op).inLen = s.inLen := rfl
@[simp] theorem issue_outLen (s : State) (op : Byte) : (issue s op).outLen = s.outLen := rfl
@[simp] theorem issue_consumed (s : State) (op : Byte) : (issue s op).consumed = s.consumed := rfl
@[simp] theorem issue_ibuf (s : State) (op : Byte) : (issue s op).ibuf = s.ibuf := rfl
@[simp] theorem issue_obuf (s : State) (op : Byte) : (issue s op).obuf = s.obuf := rfl
@[simp] theorem issue_pr (s : State) (op : Byte) : (issue s op).pr = s.pr := rfl
@[simp] theorem issue_fr (s : State) (op : Byte) : (issue s op).fr = s.fr := rfl
@[simp] theorem issue_pt (s : State) (op : Byte) : (issue s op).pt = s.pt := rfl
@[simp] theorem issue_host (s : State) (op : Byte) : (issue s op).host = s.host := rfl
@[simp] theorem issue_turns (s : State) (op : Byte) : (issue s op).turns = s.turns := rfl
@[simp] theorem issue_draws (s : State) (op : Byte) : (issue s op).draws = s.draws := rfl

/-! A refused host access (R38). -/

@[simp] theorem refuseAccess_params (s : State) : (refuseAccess s).params = s.params := rfl
@[simp] theorem refuseAccess_pendingOp (s : State) : (refuseAccess s).pendingOp = s.pendingOp := rfl
@[simp] theorem refuseAccess_opState (s : State) : (refuseAccess s).opState = s.opState := rfl
@[simp] theorem refuseAccess_herr (s : State) : (refuseAccess s).herr = true := rfl
@[simp] theorem refuseAccess_err (s : State) : (refuseAccess s).err = s.err := rfl
@[simp] theorem refuseAccess_inLen (s : State) : (refuseAccess s).inLen = s.inLen := rfl
@[simp] theorem refuseAccess_outLen (s : State) : (refuseAccess s).outLen = s.outLen := rfl
@[simp] theorem refuseAccess_consumed (s : State) : (refuseAccess s).consumed = s.consumed := rfl
@[simp] theorem refuseAccess_ibuf (s : State) : (refuseAccess s).ibuf = s.ibuf := rfl
@[simp] theorem refuseAccess_obuf (s : State) : (refuseAccess s).obuf = s.obuf := rfl
@[simp] theorem refuseAccess_pr (s : State) : (refuseAccess s).pr = s.pr := rfl
@[simp] theorem refuseAccess_fr (s : State) : (refuseAccess s).fr = s.fr := rfl
@[simp] theorem refuseAccess_pt (s : State) : (refuseAccess s).pt = s.pt := rfl
@[simp] theorem refuseAccess_host (s : State) : (refuseAccess s).host = s.host := rfl
@[simp] theorem refuseAccess_turns (s : State) : (refuseAccess s).turns = s.turns := rfl
@[simp] theorem refuseAccess_draws (s : State) : (refuseAccess s).draws = s.draws := rfl

/-! The reset input (R215). -/

@[simp] theorem resetInput_params (s : State) : (resetInput s).params = s.params := rfl
@[simp] theorem resetInput_pendingOp (s : State) : (resetInput s).pendingOp = 0x00#8 := rfl
@[simp] theorem resetInput_opState (s : State) : (resetInput s).opState = .idle := rfl
@[simp] theorem resetInput_herr (s : State) : (resetInput s).herr = false := rfl
@[simp] theorem resetInput_err (s : State) : (resetInput s).err = .zero := rfl
@[simp] theorem resetInput_inLen (s : State) : (resetInput s).inLen = 0 := rfl
@[simp] theorem resetInput_outLen (s : State) : (resetInput s).outLen = 0 := rfl
@[simp] theorem resetInput_consumed (s : State) : (resetInput s).consumed = 0 := rfl
@[simp] theorem resetInput_ibuf (s : State) : (resetInput s).ibuf = [] := rfl
@[simp] theorem resetInput_obuf (s : State) : (resetInput s).obuf = [] := rfl
@[simp] theorem resetInput_pr (s : State) : (resetInput s).pr = .unwritten := rfl
@[simp] theorem resetInput_fr (s : State) : (resetInput s).fr = .unwritten := rfl
@[simp] theorem resetInput_pt (s : State) : (resetInput s).pt = [] := rfl
@[simp] theorem resetInput_host (s : State) : (resetInput s).host = s.host := rfl
@[simp] theorem resetInput_turns (s : State) : (resetInput s).turns = s.turns := rfl
@[simp] theorem resetInput_draws (s : State) : (resetInput s).draws = s.draws := rfl

/-! A host read (R43). -/

@[simp] theorem reply_params (s : State) (l : Loc) (w : Word) : (reply s l w).params = s.params := rfl
@[simp] theorem reply_pendingOp (s : State) (l : Loc) (w : Word) : (reply s l w).pendingOp = s.pendingOp := rfl
@[simp] theorem reply_opState (s : State) (l : Loc) (w : Word) : (reply s l w).opState = s.opState := rfl
@[simp] theorem reply_herr (s : State) (l : Loc) (w : Word) : (reply s l w).herr = s.herr := rfl
@[simp] theorem reply_err (s : State) (l : Loc) (w : Word) : (reply s l w).err = s.err := rfl
@[simp] theorem reply_inLen (s : State) (l : Loc) (w : Word) : (reply s l w).inLen = s.inLen := rfl
@[simp] theorem reply_outLen (s : State) (l : Loc) (w : Word) : (reply s l w).outLen = s.outLen := rfl
@[simp] theorem reply_consumed (s : State) (l : Loc) (w : Word) : (reply s l w).consumed = s.consumed := rfl
@[simp] theorem reply_ibuf (s : State) (l : Loc) (w : Word) : (reply s l w).ibuf = s.ibuf := rfl
@[simp] theorem reply_obuf (s : State) (l : Loc) (w : Word) : (reply s l w).obuf = s.obuf := rfl
@[simp] theorem reply_pr (s : State) (l : Loc) (w : Word) : (reply s l w).pr = s.pr := rfl
@[simp] theorem reply_fr (s : State) (l : Loc) (w : Word) : (reply s l w).fr = s.fr := rfl
@[simp] theorem reply_pt (s : State) (l : Loc) (w : Word) : (reply s l w).pt = s.pt := rfl
@[simp] theorem reply_host (s : State) (l : Loc) (w : Word) : (reply s l w).host = { s.host with lastRead := some (l, w), lastStatus := if l = .status then some w else s.host.lastStatus } := rfl
@[simp] theorem reply_turns (s : State) (l : Loc) (w : Word) : (reply s l w).turns = s.turns := rfl
@[simp] theorem reply_draws (s : State) (l : Loc) (w : Word) : (reply s l w).draws = s.draws := rfl

/-! A host read of a free value (R42). -/

@[simp] theorem replyFree_params (s : State) (l : Loc) : (replyFree s l).params = s.params := rfl
@[simp] theorem replyFree_pendingOp (s : State) (l : Loc) : (replyFree s l).pendingOp = s.pendingOp := rfl
@[simp] theorem replyFree_opState (s : State) (l : Loc) : (replyFree s l).opState = s.opState := rfl
@[simp] theorem replyFree_herr (s : State) (l : Loc) : (replyFree s l).herr = s.herr := rfl
@[simp] theorem replyFree_err (s : State) (l : Loc) : (replyFree s l).err = s.err := rfl
@[simp] theorem replyFree_inLen (s : State) (l : Loc) : (replyFree s l).inLen = s.inLen := rfl
@[simp] theorem replyFree_outLen (s : State) (l : Loc) : (replyFree s l).outLen = s.outLen := rfl
@[simp] theorem replyFree_consumed (s : State) (l : Loc) : (replyFree s l).consumed = s.consumed := rfl
@[simp] theorem replyFree_ibuf (s : State) (l : Loc) : (replyFree s l).ibuf = s.ibuf := rfl
@[simp] theorem replyFree_obuf (s : State) (l : Loc) : (replyFree s l).obuf = s.obuf := rfl
@[simp] theorem replyFree_pr (s : State) (l : Loc) : (replyFree s l).pr = s.pr := rfl
@[simp] theorem replyFree_fr (s : State) (l : Loc) : (replyFree s l).fr = s.fr := rfl
@[simp] theorem replyFree_pt (s : State) (l : Loc) : (replyFree s l).pt = s.pt := rfl
@[simp] theorem replyFree_host (s : State) (l : Loc) : (replyFree s l).host = { s.host with lastRead := some (l, freeValue s l), lastStatus := if l = .status then some (freeValue s l) else s.host.lastStatus } := rfl
@[simp] theorem replyFree_turns (s : State) (l : Loc) : (replyFree s l).turns = s.turns := rfl
@[simp] theorem replyFree_draws (s : State) (l : Loc) : (replyFree s l).draws = s.draws + 1 := rfl

/-! The host's position in its script (R86). -/

@[simp] theorem goTo_params (s : State) (k : Nat) : (goTo s k).params = s.params := rfl
@[simp] theorem goTo_pendingOp (s : State) (k : Nat) : (goTo s k).pendingOp = s.pendingOp := rfl
@[simp] theorem goTo_opState (s : State) (k : Nat) : (goTo s k).opState = s.opState := rfl
@[simp] theorem goTo_herr (s : State) (k : Nat) : (goTo s k).herr = s.herr := rfl
@[simp] theorem goTo_err (s : State) (k : Nat) : (goTo s k).err = s.err := rfl
@[simp] theorem goTo_inLen (s : State) (k : Nat) : (goTo s k).inLen = s.inLen := rfl
@[simp] theorem goTo_outLen (s : State) (k : Nat) : (goTo s k).outLen = s.outLen := rfl
@[simp] theorem goTo_consumed (s : State) (k : Nat) : (goTo s k).consumed = s.consumed := rfl
@[simp] theorem goTo_ibuf (s : State) (k : Nat) : (goTo s k).ibuf = s.ibuf := rfl
@[simp] theorem goTo_obuf (s : State) (k : Nat) : (goTo s k).obuf = s.obuf := rfl
@[simp] theorem goTo_pr (s : State) (k : Nat) : (goTo s k).pr = s.pr := rfl
@[simp] theorem goTo_fr (s : State) (k : Nat) : (goTo s k).fr = s.fr := rfl
@[simp] theorem goTo_pt (s : State) (k : Nat) : (goTo s k).pt = s.pt := rfl
@[simp] theorem goTo_host (s : State) (k : Nat) : (goTo s k).host = { s.host with pos := k } := rfl
@[simp] theorem goTo_turns (s : State) (k : Nat) : (goTo s k).turns = s.turns := rfl
@[simp] theorem goTo_draws (s : State) (k : Nat) : (goTo s k).draws = s.draws := rfl

/-! The host goes on with its script (R86). -/

@[simp] theorem advance_params (s : State) : (advance s).params = s.params := rfl
@[simp] theorem advance_pendingOp (s : State) : (advance s).pendingOp = s.pendingOp := rfl
@[simp] theorem advance_opState (s : State) : (advance s).opState = s.opState := rfl
@[simp] theorem advance_herr (s : State) : (advance s).herr = s.herr := rfl
@[simp] theorem advance_err (s : State) : (advance s).err = s.err := rfl
@[simp] theorem advance_inLen (s : State) : (advance s).inLen = s.inLen := rfl
@[simp] theorem advance_outLen (s : State) : (advance s).outLen = s.outLen := rfl
@[simp] theorem advance_consumed (s : State) : (advance s).consumed = s.consumed := rfl
@[simp] theorem advance_ibuf (s : State) : (advance s).ibuf = s.ibuf := rfl
@[simp] theorem advance_obuf (s : State) : (advance s).obuf = s.obuf := rfl
@[simp] theorem advance_pr (s : State) : (advance s).pr = s.pr := rfl
@[simp] theorem advance_fr (s : State) : (advance s).fr = s.fr := rfl
@[simp] theorem advance_pt (s : State) : (advance s).pt = s.pt := rfl
@[simp] theorem advance_host (s : State) : (advance s).host = { s.host with pos := s.host.pos + 1 } := rfl
@[simp] theorem advance_turns (s : State) : (advance s).turns = s.turns := rfl
@[simp] theorem advance_draws (s : State) : (advance s).draws = s.draws := rfl

end Sys2Proof.Machine
end

