-- ==== Sys2Proof/Laws/Access.lean ====
section
/-! SUPPORT. What a host access, a step of the host and a step of the machine can do (10_state.md R38 to R44). -/

namespace Sys2Proof.Machine

theorem fit_eq_some_iff {w v : Nat} {x : BitVec w} : fit w v = some x ↔ v < 2 ^ w ∧ x = BitVec.ofNat w v := by
  unfold fit
  split <;> simp_all [eq_comm]

theorem fit_isSome_iff {w v : Nat} : (fit w v).isSome ↔ v < 2 ^ w := by
  unfold fit
  split <;> simp_all

theorem propWrite_isSome_iff {r : PropReg} {f : PropField} {v : Nat} :
    (r.write f v).isSome ↔ v < 2 ^ 8 ∧ ∀ j, f = .val j → j < valCap := by
  cases f with
  | val j =>
    simp only [PropReg.write]
    by_cases h : j < valCap <;> simp [h, fit_isSome_iff]
  | _ => simp [PropReg.write, fit_isSome_iff]

theorem frameWrite_isSome_iff {r : FrameReg} {f : FrameField} {v : Nat} :
    (r.write f v).isSome ↔ v < 2 ^ f.width := by
  cases f <;> simp [FrameReg.write, fit_isSome_iff, FrameField.width]

/-- A write is accepted while not BUSY exactly when R38, R39 and R41 allow it. -/
theorem writeLoc_isSome_iff {s : State} {l : Loc} {v : Nat} : (writeLoc s l v).isSome ↔ WriteAllowed s l v := by
  cases l with
  | inLen => simp only [writeLoc, WriteAllowed, Loc.width]; split <;> simp_all [fit_isSome_iff]
  | ibuf i => simp only [writeLoc, WriteAllowed, Loc.width]; split <;> simp_all [fit_isSome_iff]
  | pr f =>
    cases f <;>
      simp [writeLoc, WriteAllowed, Loc.width, PropField.width, propWrite_isSome_iff, valCap]
  | fr f => simp [writeLoc, WriteAllowed, Loc.width, frameWrite_isSome_iff]
  | pt i f =>
    simp only [writeLoc]
    by_cases h : i < ptCap
    · have h' : i < 255 := h
      cases f <;> simp [h, h', WriteAllowed, Loc.width, PropField.width, propWrite_isSome_iff, valCap]
    · have h' : ¬ i < 255 := h
      cases f <;> simp [h, h', WriteAllowed]
  | _ => simp [writeLoc, WriteAllowed, Loc.width, fit_isSome_iff]

/-- A host write is refused, setting HERR alone, or accepted as R38 to R41 allow (R40). -/
theorem hostWrite_cases (s : State) (l : Loc) (v : Nat) :
    ((s.opState = .busy ∨ ¬ WriteAllowed s l v) ∧ hostWrite s l v = refuseAccess s) ∨
    (s.opState ≠ .busy ∧ WriteAllowed s l v ∧ writeLoc s l v = some (hostWrite s l v)) := by
  unfold hostWrite
  split
  · exact .inl ⟨.inl ‹_›, rfl⟩
  · cases h : writeLoc s l v with
    | none =>
      refine .inl ⟨.inr fun ha => ?_, rfl⟩
      simp [← writeLoc_isSome_iff, h] at ha
    | some t => exact .inr ⟨‹_›, writeLoc_isSome_iff.1 (by simp [h]), rfl⟩

/-- What an accepted write can change: one destination, or, for CMD, PENDING_OP and STATE (R22, R62). -/
theorem writeLoc_cases {s t : State} {l : Loc} {v : Nat} (h : writeLoc s l v = some t) :
    (∃ op, l = .cmd ∧ v < 2 ^ 8 ∧ t = issue s op) ∨
    (∃ w, l = .inLen ∧ v ≤ s.params.ibufSize ∧ w = BitVec.ofNat 32 v ∧ t = { s with inLen := w }) ∨
    (∃ i b, l = .ibuf i ∧ i < s.params.ibufSize ∧ t = { s with ibuf := Table.put s.ibuf i b }) ∨
    (∃ f r, l = .pr f ∧ s.pr.write f v = some r ∧ t = { s with pr := r }) ∨
    (∃ f r, l = .fr f ∧ s.fr.write f v = some r ∧ t = { s with fr := r }) ∨
    (∃ i f r, l = .pt i f ∧ i < ptCap ∧ (ptEntry s.pt i).write f v = some r ∧
      t = { s with pt := Table.put s.pt i r }) := by
  cases l with
  | cmd =>
    obtain ⟨op, hop, rfl⟩ := Option.map_eq_some_iff.1 h
    exact .inl ⟨op, rfl, (fit_eq_some_iff.1 hop).1, rfl⟩
  | inLen =>
    simp only [writeLoc] at h
    split at h
    · obtain ⟨w, hw, rfl⟩ := Option.map_eq_some_iff.1 h
      exact .inr (.inl ⟨w, rfl, ‹_›, (fit_eq_some_iff.1 hw).2, rfl⟩)
    · cases h
  | ibuf i =>
    simp only [writeLoc] at h
    split at h
    · obtain ⟨b, hb, rfl⟩ := Option.map_eq_some_iff.1 h
      exact .inr (.inr (.inl ⟨i, b, rfl, ‹_›, rfl⟩))
    · cases h
  | pr f =>
    obtain ⟨r, hr, rfl⟩ := Option.map_eq_some_iff.1 h
    exact .inr (.inr (.inr (.inl ⟨f, r, rfl, hr, rfl⟩)))
  | fr f =>
    obtain ⟨r, hr, rfl⟩ := Option.map_eq_some_iff.1 h
    exact .inr (.inr (.inr (.inr (.inl ⟨f, r, rfl, hr, rfl⟩))))
  | pt i f =>
    simp only [writeLoc] at h
    split at h
    · obtain ⟨r, hr, rfl⟩ := Option.map_eq_some_iff.1 h
      exact .inr (.inr (.inr (.inr (.inr ⟨i, f, r, rfl, ‹_›, hr, rfl⟩))))
    · cases h
  | _ => cases h

/-- What a written property register can be (R32, R39). -/
theorem propWrite_cases {r q : PropReg} {f : PropField} {v : Nat} (h : r.write f v = some q) :
    (∃ b, q = { r with epc := some b }) ∨ (∃ b, q = { r with pdc := some b }) ∨
    (∃ b, q = { r with vlen := some b }) ∨
    ∃ j b, j < valCap ∧ q = { r with val := Table.put r.val j b } := by
  cases f with
  | epc => obtain ⟨b, -, rfl⟩ := Option.map_eq_some_iff.1 h; exact .inl ⟨b, rfl⟩
  | pdc => obtain ⟨b, -, rfl⟩ := Option.map_eq_some_iff.1 h; exact .inr (.inl ⟨b, rfl⟩)
  | vlen => obtain ⟨b, -, rfl⟩ := Option.map_eq_some_iff.1 h; exact .inr (.inr (.inl ⟨b, rfl⟩))
  | val j =>
    simp only [PropReg.write] at h
    split at h
    · obtain ⟨b, -, rfl⟩ := Option.map_eq_some_iff.1 h
      exact .inr (.inr (.inr ⟨j, b, ‹_›, rfl⟩))
    · cases h

/-- What a host read can do: answer a value, answer a free value while BUSY, be refused with a free value, or fault (R38, R42, R44). -/
theorem hostRead_cases (s : State) (l : Loc) :
    (∃ w, hostRead s l = .next (reply s l w) ∧ readLoc s l = some (some w) ∧ (l = .status ∨ s.opState ≠ .busy)) ∨
    (l ≠ .status ∧ s.opState = .busy ∧ hostRead s l = .next (replyFree s l)) ∨
    (s.opState ≠ .busy ∧ readLoc s l = none ∧ hostRead s l = .next (replyFree (refuseAccess s) l)) ∨
    (s.opState ≠ .busy ∧ readLoc s l = some none ∧ hostRead s l = .fault (.unwritten l)) := by
  unfold hostRead
  split
  · rename_i h
    subst h
    exact .inl ⟨_, rfl, rfl, .inl rfl⟩
  · split
    · exact .inr (.inl ⟨‹_›, ‹_›, rfl⟩)
    · rename_i hb
      cases h : readLoc s l with
      | none => exact .inr (.inr (.inl ⟨hb, rfl, rfl⟩))
      | some o =>
        cases o with
        | none => exact .inr (.inr (.inr ⟨hb, rfl, rfl⟩))
        | some w => exact .inl ⟨w, rfl, rfl, .inr hb⟩

/-- A step is the turn of the agent whose turn it is, with that turn used up. -/
theorem step_eq_takeTurn (s : State) : step s = takeTurn (turnTaken s) { s with turns := s.turns.tail } := by
  cases h : s.turns with
  | nil =>
    simp only [step, turnTaken, h, List.tail_nil]
    congr 1
    cases s
    simp_all
  | cons t ts => simp [step, turnTaken, h]

/-- What a host step that answers a next state can be: nothing, a write, a read, or a move in the script. -/
theorem hostStep_next_cases {s t : State} (h : hostStep s = .next t) :
    (nextOp s = none ∧ t = s) ∨
    (∃ l v, nextOp s = some (.wr l v) ∧ t = advance (hostWrite s l v)) ∨
    (∃ l, nextOp s = some (.rd l) ∧ hostRead (advance s) l = .next t) ∨
    ((∀ l v, nextOp s ≠ some (.wr l v)) ∧ (∀ l, nextOp s ≠ some (.rd l)) ∧ ∃ k, t = goTo s k) := by
  unfold hostStep at h
  cases hop : s.host.script[s.host.pos]? with
  | none =>
    rw [hop] at h
    cases h
    exact .inl ⟨hop, rfl⟩
  | some op =>
    rw [hop] at h
    have hn : nextOp s = some op := hop
    have hbranch : ∀ {b : Bool} {n : Nat}, branch s b n = .next t → ∃ k, t = goTo s k := by
      intro b n hb
      unfold branch at hb
      split at hb
      · split at hb
        · cases hb; exact ⟨_, rfl⟩
        · cases hb
      · cases hb; exact ⟨_, rfl⟩
    cases op with
    | wr l v => cases h; exact .inr (.inl ⟨l, v, hn, rfl⟩)
    | rd l => exact .inr (.inr (.inl ⟨l, hn, h⟩))
    | label n => cases h; exact .inr (.inr (.inr ⟨by simp [hn], by simp [hn], _, rfl⟩))
    | br n => exact .inr (.inr (.inr ⟨by simp [hn], by simp [hn], hbranch h⟩))
    | brErr n => exact .inr (.inr (.inr ⟨by simp [hn], by simp [hn], hbranch h⟩))
    | brHerr n => exact .inr (.inr (.inr ⟨by simp [hn], by simp [hn], hbranch h⟩))
    | backIfBusy =>
      refine .inr (.inr (.inr ⟨by simp [hn], by simp [hn], ?_⟩))
      simp only [runHostOp] at h
      split at h <;> (cases h; exact ⟨_, rfl⟩)

end Sys2Proof.Machine
end

