-- ==== Sys2Proof/Laws/Ops.lean ====
section
/-! SUPPORT. What each shared operation can do: completion, reads of written locations, error reporting. -/

namespace Sys2Proof.Machine

variable {ε δ α : Type}

/-- A completion that answers a next state either commits or raises (R190, R191). -/
theorem complete_eq_next_iff {s : State} {c : Calc ErrReg α} {w : α → State} {t : State} :
    complete s c w = .next t ↔
      (∃ v, c = .ok v ∧ t = succeed (w v)) ∨ ∃ e, c = .error (.raised e) ∧ t = raiseErr s e := by
  rcases c with (e | l) | v <;> simp [complete, eq_comm]

/-- A completion stops only on a read of an unwritten location (R44). -/
theorem complete_eq_fault_iff {s : State} {c : Calc ErrReg α} {w : α → State} {f : Fault} :
    complete s c w = .fault f ↔ ∃ l, c = .error (.unwritten l) ∧ f = .unwritten l := by
  rcases c with (e | l) | v <;> simp [complete, eq_comm]

theorem complete_ne_refused {s : State} {c : Calc ErrReg α} {w : α → State} {r : Refusal} :
    complete s c w ≠ .refused r := by
  rcases c with (e | l) | v <;> simp [complete]

@[simp] theorem need_eq_ok_iff {l : Loc} {o : Option α} {v : α} :
    (need l o : Calc ε α) = .ok v ↔ o = some v := by
  cases o <;> simp [need]

@[simp] theorem need_ne_raised {l : Loc} {o : Option α} {e : ε} : (need l o : Calc ε α) ≠ .error (.raised e) := by
  cases o <;> simp [need]

@[simp] theorem need_eq_unwritten_iff {l k : Loc} {o : Option α} :
    (need l o : Calc ε α) = .error (.unwritten k) ↔ o = none ∧ k = l := by
  cases o <;> simp [need, eq_comm]

/-- Reading a run of locations gives their values exactly when every one is written. -/
theorem needAll_eq_ok_iff {loc : Nat → Loc} {read : Nat → Option α} {j n : Nat} {vs : List α} :
    (needAll loc read j n : Calc ε (List α)) = .ok vs ↔
      vs.length = n ∧ ∀ k v, vs[k]? = some v → read (j + k) = some v := by
  induction n generalizing j vs with
  | zero =>
    cases vs <;> simp [needAll]
  | succ n ih =>
    rw [needAll]
    constructor
    · intro h
      split at h
      · cases h
      · rename_i v hv
        split at h
        · cases h
        · rename_i ws hws
          cases h
          obtain ⟨hl, hr⟩ := ih.1 hws
          refine ⟨by simp [hl], ?_⟩
          intro k u hk
          cases k with
          | zero =>
            obtain rfl : v = u := by simpa using hk
            exact need_eq_ok_iff.1 hv
          | succ k => simpa [Nat.add_assoc, Nat.add_comm 1] using hr k u (by simpa using hk)
    · rintro ⟨hl, hr⟩
      cases vs with
      | nil => simp at hl
      | cons v ws =>
        have h0 : need (ε := ε) (loc j) (read j) = .ok v := need_eq_ok_iff.2 (hr 0 v rfl)
        have h1 : needAll loc read (j + 1) n = (.ok ws : Calc ε (List α)) := by
          refine ih.2 ⟨by simpa using hl, fun k u hk => ?_⟩
          simpa [Nat.add_assoc, Nat.add_comm 1] using hr (k + 1) u (by simpa using hk)
        rw [h0]
        simp only [h1]

/-- A run of reads raises no error of its own. -/
theorem needAll_ne_raised {loc : Nat → Loc} {read : Nat → Option α} {j n : Nat} {e : ε} :
    (needAll loc read j n : Calc ε (List α)) ≠ .error (.raised e) := by
  induction n generalizing j with
  | zero => simp [needAll]
  | succ n ih =>
    rw [needAll]
    split
    · rename_i h
      intro he
      cases he
      exact need_ne_raised h
    · split
      · rename_i h
        intro he
        cases he
        exact ih h
      · simp

@[simp] theorem mapRaised_eq_ok_iff {f : ε → δ} {c : Calc ε α} {v : α} :
    c.mapRaised f = .ok v ↔ c = .ok v := by
  rcases c with (e | l) | u <;> simp [Calc.mapRaised]

theorem mapRaised_eq_raised_iff {f : ε → δ} {c : Calc ε α} {d : δ} :
    c.mapRaised f = .error (.raised d) ↔ ∃ e, c = .error (.raised e) ∧ d = f e := by
  rcases c with (e | l) | u <;> simp [Calc.mapRaised, eq_comm]

/-- Loaded entries, one by one: entry `i + k` takes the k-th Property. -/
theorem loadedEntries_getElem? (t : Table PropReg) (i : Nat) (ps : List Property) (k : Nat) :
    (loadedEntries t i ps)[k]? = ps[k]?.map (ptEntry t (i + k)).load := by
  induction ps generalizing i k with
  | nil => simp [loadedEntries]
  | cons p ps ih =>
    cases k with
    | zero => simp [loadedEntries]
    | succ k => simp [loadedEntries, ih, Nat.add_assoc, Nat.add_comm 1]

@[simp] theorem loadedEntries_length (t : Table PropReg) (i : Nat) (ps : List Property) :
    (loadedEntries t i ps).length = ps.length := by
  induction ps generalizing i with
  | nil => rfl
  | cons p ps ih => simp [loadedEntries, ih]

/-- The property table after a load of the properties `ps`: the entries below `|ps|` take them, the others stay (R136). -/
theorem ptEntry_overwrite_loaded (t : Table PropReg) (ps : List Property) (i : Nat) :
    ptEntry (Table.overwrite t (loadedEntries t 0 ps)) i =
      match ps[i]? with
      | some p => (ptEntry t i).load p
      | none => ptEntry t i := by
  unfold ptEntry
  rw [Table.get_overwrite, loadedEntries_length, loadedEntries_getElem?]
  by_cases h : i < ps.length
  · simp [h, ptEntry]
  · simp [h]

/-- A property register that has taken a Property, byte by byte. -/
theorem load_val (r : PropReg) (p : Property) (j : Nat) :
    Table.get (r.load p).val j = if j < p.value.length then p.value[j]? else Table.get r.val j :=
  Table.get_overwrite _ _ _

end Sys2Proof.Machine
end

