-- ==== Sys2Proof/Laws/Hex.lean ====
section
/-! SUPPORT. The hex primitives (20_memory.md R57 to R59) and the readers built on them: when they succeed and when they report an
invalid digit. -/

namespace Sys2Proof.Machine

variable {lower : Bool} {hc : HexCase} {t : Text}

/-- A digit the encoders emit is one the decoders accept, if the letter cases agree (R57, R59). -/
theorem hexval_hexdigit (h : lower = true ∨ hc = .upper) (v : BitVec 4) :
    hexval lower (hexdigit hc v) = some v := by
  revert v
  rcases h with rfl | rfl
  · cases hc <;> decide
  · cases lower <;> decide

theorem hexPair_nibbles (b : Byte) : hexPair (b.extractLsb' 4 4) (b.extractLsb' 0 4) = b := by
  revert b; decide

theorem hexPair_high (hi lo : BitVec 4) : (hexPair hi lo).extractLsb' 4 4 = hi := by
  revert hi lo; decide

theorem hexPair_low (hi lo : BitVec 4) : (hexPair hi lo).extractLsb' 0 4 = lo := by
  revert hi lo; decide

@[simp] theorem hex_length (hc : HexCase) (bs : List Byte) : (hex hc bs).length = 2 * bs.length := by
  induction bs with
  | nil => rfl
  | cons b bs ih => simp only [hex, List.length_cons, ih]; omega

theorem hex_append (hc : HexCase) (a b : List Byte) : hex hc (a ++ b) = hex hc a ++ hex hc b := by
  induction a with
  | nil => rfl
  | cons x a ih => simp [hex, ih]

/-- The two characters of the k-th byte of a hex text (R59). -/
theorem hex_getElem? (hc : HexCase) (bs : List Byte) (k : Nat) :
    (hex hc bs)[2 * k]? = bs[k]?.map (fun b => hexdigit hc (b.extractLsb' 4 4)) ∧
    (hex hc bs)[2 * k + 1]? = bs[k]?.map (fun b => hexdigit hc (b.extractLsb' 0 4)) := by
  induction bs generalizing k with
  | nil => simp [hex]
  | cons b bs ih =>
    cases k with
    | zero => simp [hex]
    | succ k =>
      have := ih k
      simpa [hex, show 2 * (k + 1) = 2 * k + 1 + 1 by omega] using this

theorem readDigit_eq_ok_iff {p : Nat} {v : BitVec 4} :
    readDigit lower t p = .ok v ↔ ∃ c, t p = some c ∧ hexval lower c = some v := by
  unfold readDigit
  cases t p with
  | none => simp [need]
  | some c => cases h : hexval lower c <;> simp [need, h]

theorem readDigit_eq_raised_iff {p : Nat} {e : Cause} :
    readDigit lower t p = .error (.raised e) ↔ e = .badHex ∧ ∃ c, t p = some c ∧ hexval lower c = none := by
  unfold readDigit
  cases t p with
  | none => simp [need]
  | some c => cases h : hexval lower c <;> simp [need, h, eq_comm]

/-- `hexbyte` succeeds exactly on the two digits of the byte (R58). -/
theorem readHexByte_eq_ok_iff {p : Nat} {b : Byte} :
    readHexByte lower t p = .ok b ↔ HexAt lower t p b := by
  unfold readHexByte HexAt
  constructor
  · intro h
    split at h
    · cases h
    · rename_i hi h1
      split at h
      · cases h
      · rename_i lo h2
        cases h
        obtain ⟨c, hc, hv⟩ := readDigit_eq_ok_iff.1 h1
        obtain ⟨d, hd, hw⟩ := readDigit_eq_ok_iff.1 h2
        exact ⟨c, d, hi, lo, hc, hd, hv, hw, rfl⟩
  · rintro ⟨c, d, hi, lo, hc, hd, hv, hw, rfl⟩
    rw [readDigit_eq_ok_iff.2 ⟨c, hc, hv⟩]
    simp only [readDigit_eq_ok_iff.2 ⟨d, hd, hw⟩]

theorem spells_nil (p : Nat) : Spells lower t p [] := by
  intro k b h
  simp at h

theorem spells_cons {p : Nat} {b : Byte} {bs : List Byte} :
    Spells lower t p (b :: bs) ↔ HexAt lower t p b ∧ Spells lower t (p + 2) bs := by
  constructor
  · intro h
    refine ⟨h 0 b rfl, fun k c hk => ?_⟩
    simpa [show p + 2 * (k + 1) = p + 2 + 2 * k by omega] using h (k + 1) c (by simpa using hk)
  · rintro ⟨h0, h1⟩ k c hk
    cases k with
    | zero => cases hk; exact h0
    | succ k =>
      simpa [show p + 2 * (k + 1) = p + 2 + 2 * k by omega] using h1 k c (by simpa using hk)

theorem spells_append {p : Nat} {a b : List Byte} :
    Spells lower t p (a ++ b) ↔ Spells lower t p a ∧ Spells lower t (p + 2 * a.length) b := by
  induction a generalizing p with
  | nil => simp [spells_nil]
  | cons x a ih =>
    rw [List.cons_append, spells_cons, ih, spells_cons, List.length_cons,
      show p + 2 * (a.length + 1) = p + 2 + 2 * a.length by omega, and_assoc]

/-- A text spells at most one byte at a position. -/
theorem hexAt_unique {p : Nat} {a b : Byte} (ha : HexAt lower t p a) (hb : HexAt lower t p b) : a = b := by
  have h := (readHexByte_eq_ok_iff.2 ha).symm.trans (readHexByte_eq_ok_iff.2 hb)
  simpa using h

/-- Reading `n` hex bytes succeeds exactly on a text that spells them (R100, R130, R161). -/
theorem readHexBytes_eq_ok_iff {p n : Nat} {bs : List Byte} :
    readHexBytes lower t p n = .ok bs ↔ bs.length = n ∧ Spells lower t p bs := by
  induction n generalizing p bs with
  | zero =>
    cases bs <;> simp [readHexBytes, spells_nil]
  | succ n ih =>
    rw [readHexBytes]
    constructor
    · intro h
      split at h
      · cases h
      · rename_i b hb
        split at h
        · cases h
        · rename_i cs hcs
          cases h
          obtain ⟨hl, hs⟩ := ih.1 hcs
          exact ⟨by simp [hl], spells_cons.2 ⟨readHexByte_eq_ok_iff.1 hb, hs⟩⟩
    · rintro ⟨hl, hs⟩
      cases bs with
      | nil => simp at hl
      | cons b cs =>
        obtain ⟨hb, hcs⟩ := spells_cons.1 hs
        rw [readHexByte_eq_ok_iff.2 hb]
        simp only [ih.2 ⟨by simpa using hl, hcs⟩]

/-- Reading hex bytes reports BADHEX exactly where there is a first invalid digit (R101, R131, R161), and no other error. -/
theorem readHexBytes_eq_raised_iff {p n : Nat} {e : Cause} :
    readHexBytes lower t p n = .error (.raised e) ↔ e = .badHex ∧ FirstBadWithin lower t p (2 * n) := by
  induction n generalizing p with
  | zero => simp [readHexBytes, FirstBadWithin]
  | succ n ih =>
    rw [readHexBytes, readHexByte]
    cases h0 : readDigit lower t p with
    | error x =>
      cases x with
      | raised x =>
        obtain ⟨rfl, c, hc, hv⟩ := readDigit_eq_raised_iff.1 h0
        simp only [Except.error.injEq, Halt.raised.injEq]
        constructor
        · rintro rfl
          exact ⟨rfl, 0, by omega, ⟨c, hc, hv⟩, by omega⟩
        · rintro ⟨rfl, -⟩
          rfl
      | unwritten l =>
        simp only [Except.error.injEq, reduceCtorEq, false_iff, not_and]
        rintro rfl ⟨k, hk, hbad, hgood⟩
        have hn : t p = none := by
          unfold readDigit at h0
          cases ht : t p with
          | none => rfl
          | some c => cases hv : hexval lower c <;> simp [need, ht, hv] at h0
        cases k with
        | zero => obtain ⟨c, hc, -⟩ := hbad; simp [hn] at hc
        | succ k => obtain ⟨c, v, hc, -⟩ := hgood 0 (by omega); simp [hn] at hc
    | ok hi =>
      obtain ⟨c0, hc0, hv0⟩ := readDigit_eq_ok_iff.1 h0
      cases h1 : readDigit lower t (p + 1) with
      | error x =>
        cases x with
        | raised x =>
          obtain ⟨rfl, c, hc, hv⟩ := readDigit_eq_raised_iff.1 h1
          simp only [Except.error.injEq, Halt.raised.injEq]
          constructor
          · rintro rfl
            refine ⟨rfl, 1, by omega, ⟨c, hc, hv⟩, fun j hj => ?_⟩
            obtain rfl : j = 0 := by omega
            exact ⟨c0, hi, hc0, hv0⟩
          · rintro ⟨rfl, -⟩
            rfl
        | unwritten l =>
          simp only [Except.error.injEq, reduceCtorEq, false_iff, not_and]
          rintro rfl ⟨k, hk, hbad, hgood⟩
          have hn : t (p + 1) = none := by
            unfold readDigit at h1
            cases ht : t (p + 1) with
            | none => rfl
            | some c => cases hv : hexval lower c <;> simp [need, ht, hv] at h1
          match k with
          | 0 => obtain ⟨c, hc, hv⟩ := hbad; simp_all
          | 1 => obtain ⟨c, hc, -⟩ := hbad; simp [hn] at hc
          | k + 2 => obtain ⟨c, v, hc, -⟩ := hgood 1 (by omega); simp [hn] at hc
      | ok lo =>
        obtain ⟨c1, hc1, hv1⟩ := readDigit_eq_ok_iff.1 h1
        have key : (e = .badHex ∧ FirstBadWithin lower t (p + 2) (2 * n)) ↔
            e = .badHex ∧ FirstBadWithin lower t p (2 * (n + 1)) := by
          refine and_congr_right fun _ => ?_
          constructor
          · rintro ⟨k, hk, hbad, hgood⟩
            refine ⟨k + 2, by omega, by simpa [Nat.add_assoc, Nat.add_comm 2] using hbad, fun j hj => ?_⟩
            match j with
            | 0 => exact ⟨c0, hi, hc0, hv0⟩
            | 1 => exact ⟨c1, lo, hc1, hv1⟩
            | j + 2 => simpa [Nat.add_assoc, Nat.add_comm 2] using hgood j (by omega)
          · rintro ⟨k, hk, hbad, hgood⟩
            match k with
            | 0 => obtain ⟨c, hc, hv⟩ := hbad; simp_all
            | 1 => obtain ⟨c, hc, hv⟩ := hbad; simp_all
            | k + 2 =>
              refine ⟨k, by omega, by simpa [Nat.add_assoc, Nat.add_comm 2] using hbad, fun j hj => ?_⟩
              simpa [Nat.add_assoc, Nat.add_comm 2] using hgood (j + 2) (by omega)
        rw [← key, ← ih]
        cases readHexBytes lower t (p + 2) n <;> simp

/-- Reading hex bytes faults on the first unwritten character, where every character before it is a digit (R44, R101). -/
theorem readHexBytes_unwritten {p n k : Nat} (hk : k < 2 * n) (h : FirstUnwrittenAt lower t p k) :
    readHexBytes lower t p n = .error (.unwritten (.ibuf (p + k))) := by
  obtain ⟨hn, hg⟩ := h
  induction n generalizing p k with
  | zero => omega
  | succ n ih =>
    have bad : ∀ {q}, t q = none → readDigit lower t q = .error (.unwritten (.ibuf q)) := by
      intro q hq
      simp [readDigit, hq, need]
    rw [readHexBytes, readHexByte]
    match k with
    | 0 => rw [bad (q := p) hn]; rfl
    | 1 =>
      obtain ⟨c, v, hc, hv⟩ := hg 0 (by omega)
      rw [readDigit_eq_ok_iff (p := p) |>.2 ⟨c, hc, hv⟩, bad hn]
    | k + 2 =>
      obtain ⟨c, v, hc, hv⟩ := hg 0 (by omega)
      obtain ⟨d, w, hd, hw⟩ := hg 1 (by omega)
      rw [readDigit_eq_ok_iff (p := p) |>.2 ⟨c, hc, hv⟩, readDigit_eq_ok_iff.2 ⟨d, hd, hw⟩,
        show p + (k + 2) = p + 2 + k by omega]
      simp only [ih (p := p + 2) (k := k) (by omega) (by rwa [show p + 2 + k = p + (k + 2) by omega]) fun j hj => by
        simpa [show p + 2 + j = p + (j + 2) by omega] using hg (j + 2) (by omega)]

/-- Reading one hex byte faults on its first unwritten digit. -/
theorem readHexByte_unwritten {p k : Nat} (hk : k < 2) (h : FirstUnwrittenAt lower t p k) :
    readHexByte lower t p = .error (.unwritten (.ibuf (p + k))) := by
  have hb := readHexBytes_unwritten (n := 1) hk h
  rw [readHexBytes] at hb
  split at hb
  · rename_i e he
    cases hb
    exact he
  · simp [readHexBytes] at hb

/-- A text that holds the characters of `hex(bs)` spells `bs` (R59). -/
theorem spells_hex (h : lower = true ∨ hc = .upper) {p : Nat} {bs : List Byte}
    (ht : ∀ k c, (hex hc bs)[k]? = some c → t (p + k) = some c) : Spells lower t p bs := by
  intro k b hb
  obtain ⟨h0, h1⟩ := hex_getElem? hc bs k
  refine ⟨_, _, b.extractLsb' 4 4, b.extractLsb' 0 4, ht _ _ (by rw [h0, hb]; rfl), ?_, hexval_hexdigit h _,
    hexval_hexdigit h _, (hexPair_nibbles b).symm⟩
  exact ht (2 * k + 1) _ (by rw [h1, hb]; rfl)

end Sys2Proof.Machine
end

