-- ==== Sys2Proof/Laws/Codec.lean ====
section
/-! SUPPORT. The shared decoders and encoders: when `pdec`, `fdec`, the record of PR and the held Frame give a value, and which
(40_property.md R100, 41_frame.md R130, R137). -/

namespace Sys2Proof.Machine

variable {lower : Bool} {t : Text} {L : Nat}

/-! ### Wire forms -/

@[simp] theorem recordBytes_length (p : Property) : (recordBytes p).length = 2 + p.value.length := by
  simp only [recordBytes, List.length_cons]; omega

@[simp] theorem headerBytes_length (h : Header) : (headerBytes h).length = 12 := rfl

/-- The bytes of a 16-bit field put together again (R82, R83). -/
theorem join16 (x : BitVec 16) : x.extractLsb' 8 8 ++ x.extractLsb' 0 8 = x := by
  apply BitVec.eq_of_getLsbD_eq
  intro i hi
  simp only [BitVec.getLsbD_append, BitVec.getLsbD_extractLsb']
  split
  · simp_all
  · rw [show 8 + (i - 8) = i by omega]; simp; omega

/-- The bytes of a 24-bit field put together again (R82, R83). -/
theorem join24 (x : BitVec 24) : x.extractLsb' 16 8 ++ x.extractLsb' 8 8 ++ x.extractLsb' 0 8 = x := by
  apply BitVec.eq_of_getLsbD_eq
  intro i hi
  simp only [BitVec.getLsbD_append, BitVec.getLsbD_extractLsb']
  split
  · simp_all
  · split
    · rw [show 8 + (i - 8) = i by omega]; simp; omega
    · rw [show 16 + (i - 8 - 8) = i by omega]; simp; omega

/-- Field assembly undoes field splitting (R82, R83). -/
theorem headerOf_headerBytes (h : Header) : headerOf (headerBytes h) = h := by
  obtain ⟨e1, e2, tid, seoj, deoj, esv, opc⟩ := h
  simp only [headerOf, headerBytes, List.getD_cons_zero, List.getD_cons_succ, join16, join24]

/-- Field splitting undoes field assembly (R82, R83). -/
theorem headerBytes_headerOf {b : List Byte} (hb : b.length = 12) : headerBytes (headerOf b) = b := by
  obtain ⟨b0, b1, b2, b3, b4, b5, b6, b7, b8, b9, b10, b11, rfl⟩ :
      ∃ b0 b1 b2 b3 b4 b5 b6 b7 b8 b9 b10 b11, b = [b0, b1, b2, b3, b4, b5, b6, b7, b8, b9, b10, b11] := by
    match b, hb with
    | [b0, b1, b2, b3, b4, b5, b6, b7, b8, b9, b10, b11], _ => exact ⟨_, _, _, _, _, _, _, _, _, _, _, _, rfl⟩
  have two : ∀ x y : Byte, (x ++ y).extractLsb' 8 8 = x ∧ (x ++ y).extractLsb' 0 8 = y := by
    intro x y
    constructor <;>
    · apply BitVec.eq_of_getLsbD_eq
      intro i hi
      simp only [BitVec.getLsbD_append, BitVec.getLsbD_extractLsb', hi, decide_true, Bool.true_and]
      split <;> first | omega | (congr 1; omega)
  have three : ∀ x y z : Byte, (x ++ y ++ z).extractLsb' 16 8 = x ∧ (x ++ y ++ z).extractLsb' 8 8 = y ∧
      (x ++ y ++ z).extractLsb' 0 8 = z := by
    intro x y z
    refine ⟨?_, ?_, ?_⟩ <;>
    · apply BitVec.eq_of_getLsbD_eq
      intro i hi
      simp only [BitVec.getLsbD_append, BitVec.getLsbD_extractLsb', hi, decide_true, Bool.true_and]
      split
      · first | omega | (congr 1; omega)
      · split <;> first | omega | (congr 1; omega)
  simp only [headerBytes, headerOf, List.getD_cons_zero, List.getD_cons_succ, (two _ _).1, (two _ _).2,
    (three _ _ _).1, (three _ _ _).2.1, (three _ _ _).2.2]

/-! ### Loading a decoded value -/

/-- A property register that has taken a well-formed Property holds it (R105). -/
theorem load_holds (r : PropReg) {p : Property} (h : p.WellFormed) : (r.load p).Holds p := by
  refine ⟨h, rfl, rfl, rfl, fun j v hj => ?_⟩
  rw [load_val, if_pos (List.getElem?_eq_some_iff.1 hj).1, hj]

/-- FR and PT hold a well-formed Frame once they have taken it (R136). -/
theorem holdsFrame_of_loaded {s t : State} {f : Frame} (h : f.WellFormed) (hfr : t.fr = FrameReg.load f.header)
    (hpt : t.pt = Table.overwrite s.pt (loadedEntries s.pt 0 f.props)) : HoldsFrame t f := by
  refine ⟨h, hfr, fun i p hi => ?_⟩
  rw [hpt, ptEntry_overwrite_loaded, hi]
  exact load_holds _ (h.2 p (List.mem_of_getElem? hi))

/-! ### The decoders -/

/-- `pdec` succeeds exactly on a text that spells the record of a Property and is long enough for it (R100, R102). -/
theorem pdec_eq_ok_iff {p used : Nat} {q : Property} :
    pdec lower t L p = .ok (q, used) ↔
      q.WellFormed ∧ used = 4 + 2 * q.value.length ∧ used ≤ L - p ∧ Spells lower t p (recordBytes q) := by
  unfold pdec
  constructor
  · intro h
    split at h
    · cases h
    · split at h
      · cases h
      · rename_i tag htag
        split at h
        · cases h
        · rename_i n hn
          split at h
          · cases h
          · split at h
            · cases h
            · rename_i hlen value hv
              cases h
              obtain ⟨hl, hs⟩ := readHexBytes_eq_ok_iff.1 hv
              refine ⟨hl.symm, by simp only [hl], by omega, ?_⟩
              exact spells_cons.2 ⟨readHexByte_eq_ok_iff.1 htag,
                spells_cons.2 ⟨readHexByte_eq_ok_iff.1 hn, hs⟩⟩
  · rintro ⟨hwf, rfl, hle, hs⟩
    obtain ⟨htag, hs⟩ := spells_cons.1 hs
    obtain ⟨hn, hs⟩ := spells_cons.1 hs
    have hwf : q.length.toNat = q.value.length := hwf
    rw [if_neg (by omega), readHexByte_eq_ok_iff.2 htag]
    simp only [readHexByte_eq_ok_iff.2 hn, hwf, if_neg (show ¬ L - p < 4 + 2 * q.value.length by omega),
      readHexBytes_eq_ok_iff.2 ⟨rfl, hs⟩]

/-- A property decode fails only as SHORT or BADHEX (R100). -/
theorem pdec_raised {p : Nat} {e : Cause} (h : pdec lower t L p = .error (.raised e)) :
    e = .short ∨ e = .badHex := by
  unfold pdec at h
  have hb : ∀ {p : Nat} {e : Cause}, readHexByte lower t p = .error (.raised e) → e = .badHex := by
    intro p e h
    have : readHexBytes lower t p 1 = .error (.raised e) := by rw [readHexBytes, h]
    exact (readHexBytes_eq_raised_iff.1 this).1
  split at h
  · cases h; exact .inl rfl
  · split at h
    · rename_i h1; cases h; exact .inr (hb h1)
    · split at h
      · rename_i h1; cases h; exact .inr (hb h1)
      · split at h
        · cases h; exact .inl rfl
        · split at h
          · rename_i h1; cases h; exact .inr (readHexBytes_eq_raised_iff.1 h1).1
          · cases h

/-- The property loop succeeds exactly on a text that spells the records of that many Properties (R132). -/
theorem pdecList_eq_ok_iff {i cur n last : Nat} {ps : List Property} (hcur : cur ≤ L) :
    pdecList lower t L i cur n = .ok (ps, last) ↔
      ps.length = n ∧ (∀ q ∈ ps, q.WellFormed) ∧ last = cur + 2 * (recordsBytes ps).length ∧ last ≤ L ∧
      Spells lower t cur (recordsBytes ps) := by
  induction n generalizing i cur last ps with
  | zero =>
    cases ps with
    | nil =>
      simp only [pdecList, Except.ok.injEq, Prod.mk.injEq, true_and, List.length_nil, recordsBytes, spells_nil,
        List.not_mem_nil, false_implies, implies_true, and_true]
      omega
    | cons q qs => simp [pdecList]
  | succ n ih =>
    rw [pdecList]
    constructor
    · intro h
      split at h
      · cases h
      · rename_i q used hq
        obtain ⟨hwf, hu, hle, hs⟩ := pdec_eq_ok_iff.1 (mapRaised_eq_ok_iff.1 hq)
        split at h
        · cases h
        · rename_i qs last' hqs
          cases h
          obtain ⟨hl, hall, hlast, hL, hss⟩ := (ih (by omega)).1 hqs
          refine ⟨by simp [hl], List.forall_mem_cons.2 ⟨hwf, hall⟩, ?_, hL, ?_⟩
          · simp only [recordsBytes, List.length_append, recordBytes_length]; omega
          · refine spells_append.2 ⟨hs, ?_⟩
            rw [recordBytes_length, show cur + 2 * (2 + q.value.length) = cur + used by omega]
            exact hss
    · rintro ⟨hl, hall, rfl, hL, hs⟩
      cases ps with
      | nil => simp at hl
      | cons q qs =>
        obtain ⟨hwf, hall⟩ := List.forall_mem_cons.1 hall
        rw [recordsBytes, spells_append] at hs
        simp only [recordsBytes, List.length_append, recordBytes_length] at hL hs ⊢
        have hq : pdec lower t L cur = .ok (q, 4 + 2 * q.value.length) :=
          pdec_eq_ok_iff.2 ⟨hwf, rfl, by omega, hs.1⟩
        have hqs : pdecList lower t L (i + 1) (cur + (4 + 2 * q.value.length)) n =
            .ok (qs, cur + (4 + 2 * q.value.length) + 2 * (recordsBytes qs).length) := by
          refine (ih (by omega)).2 ⟨by simpa using hl, hall, rfl, by omega, ?_⟩
          rw [show cur + (4 + 2 * q.value.length) = cur + 2 * (2 + q.value.length) by omega]
          exact hs.2
        rw [mapRaised_eq_ok_iff.2 hq]
        simp only [hqs, Except.ok.injEq, Prod.mk.injEq, true_and]
        omega

/-- The property loop fails as MalformedFrame, SHORT or BADHEX, inside a property (R133). -/
theorem pdecList_raised {i cur n : Nat} {e : ErrReg} (h : pdecList lower t L i cur n = .error (.raised e)) :
    e.code = .malformedFrame ∧ (e.cause = .short ∨ e.cause = .badHex) ∧ e.inprop = true := by
  induction n generalizing i cur with
  | zero => cases h
  | succ n ih =>
    rw [pdecList] at h
    split at h
    · rename_i h1
      cases h
      obtain ⟨c, hc, rfl⟩ := mapRaised_eq_raised_iff.1 h1
      exact ⟨rfl, pdec_raised hc, rfl⟩
    · split at h
      · rename_i h1
        cases h
        exact ih h1
      · cases h

@[simp] theorem frameBytes_length (f : Frame) : (frameBytes f).length = 12 + (recordsBytes f.props).length := by
  simp [frameBytes]

/-- `fdec` succeeds exactly on a text that begins with the hex of a well-formed Frame (R130, R135). -/
theorem fdec_eq_ok_iff {f : Frame} {last : Nat} :
    fdec lower t L = .ok (f, last) ↔
      f.WellFormed ∧ last = 2 * (frameBytes f).length ∧ last ≤ L ∧ Spells lower t 0 (frameBytes f) := by
  unfold fdec
  constructor
  · intro h
    split at h
    · cases h
    · rename_i hL
      split at h
      · cases h
      · rename_i b hb
        obtain ⟨hl, hs⟩ := readHexBytes_eq_ok_iff.1 (mapRaised_eq_ok_iff.1 hb)
        split at h
        · cases h
        · rename_i ps cur hps
          cases h
          obtain ⟨hn, hall, hlast, hle, hss⟩ := (pdecList_eq_ok_iff (by omega)).1 hps
          refine ⟨⟨hn.symm, hall⟩, ?_, hle, ?_⟩
          · rw [frameBytes_length]; simp only; omega
          · rw [frameBytes, spells_append, headerBytes_length]
            simp only [headerBytes_headerOf hl]
            exact ⟨hs, hss⟩
  · rintro ⟨⟨hn, hall⟩, rfl, hle, hs⟩
    rw [frameBytes_length] at hle
    rw [frameBytes, spells_append, headerBytes_length] at hs
    rw [if_neg (by omega)]
    have hb : readHexBytes lower t 0 12 = .ok (headerBytes f.header) :=
      readHexBytes_eq_ok_iff.2 ⟨rfl, hs.1⟩
    have hps : pdecList lower t L 0 24 f.header.opc.toNat = .ok (f.props, 24 + 2 * (recordsBytes f.props).length) :=
      (pdecList_eq_ok_iff (by omega)).2 ⟨hn.symm, hall, rfl, by omega, by simpa using hs.2⟩
    rw [mapRaised_eq_ok_iff.2 hb]
    simp only [headerOf_headerBytes, hps, Except.ok.injEq, Prod.mk.injEq, true_and, frameBytes_length]
    omega

/-- A frame decode fails as MalformedFrame, SHORT or BADHEX, and gives an INDEX only inside a property (R133, R188). -/
theorem fdec_raised {e : ErrReg} (h : fdec lower t L = .error (.raised e)) :
    e.code = .malformedFrame ∧ (e.cause = .short ∨ e.cause = .badHex) ∧ (e.inprop = false → e.index = 0) := by
  unfold fdec at h
  split at h
  · cases h; simp
  · split at h
    · rename_i h1
      cases h
      obtain ⟨c, hc, rfl⟩ := mapRaised_eq_raised_iff.1 h1
      simp [(readHexBytes_eq_raised_iff.1 hc).1]
    · split at h
      · rename_i h1
        cases h
        obtain ⟨h2, h3, h4⟩ := pdecList_raised h1
        exact ⟨h2, h3, by simp [h4]⟩
      · cases h

/-! ### The held Property and Frame -/

/-- The construction check passes exactly when PDC and VLEN are written and equal (R104). -/
theorem checkedLength_eq_ok_iff {place : PropField → Loc} {r : PropReg} {b : Bool} {i n : Byte} :
    checkedLength place r b i = .ok n ↔ r.pdc = some n ∧ r.vlen = some n := by
  unfold checkedLength need
  cases r.pdc <;> cases r.vlen <;> simp
  split
  · simp_all
  · simp
    intro h1 h2
    simp_all

/-- The construction check fails only as PropertyLengthMismatch, when PDC and VLEN are written and differ (R104). -/
theorem checkedLength_eq_raised_iff {place : PropField → Loc} {r : PropReg} {b : Bool} {i : Byte} {e : ErrReg} :
    checkedLength place r b i = .error (.raised e) ↔
      e = ⟨.propertyLengthMismatch, .mismatch, b, i⟩ ∧ ∃ n m, r.pdc = some n ∧ r.vlen = some m ∧ n ≠ m := by
  unfold checkedLength need
  cases r.pdc <;> cases r.vlen <;> simp
  split <;> simp_all [eq_comm]

/-- A property register gives the Property it holds (R32, R33). -/
theorem readProperty_eq_ok_iff {place : PropField → Loc} {r : PropReg} {n : Byte} {p : Property} :
    readProperty place r n = .ok p ↔
      p.length = n ∧ p.WellFormed ∧ r.epc = some p.tag ∧
      ∀ j v, p.value[j]? = some v → Table.get r.val j = some v := by
  unfold readProperty
  constructor
  · intro h
    split at h
    · cases h
    · rename_i tag htag
      split at h
      · cases h
      · rename_i vs hvs
        cases h
        obtain ⟨hl, hr⟩ := needAll_eq_ok_iff.1 hvs
        exact ⟨rfl, hl.symm, need_eq_ok_iff.1 htag, by simpa using hr⟩
  · rintro ⟨rfl, hwf, htag, hr⟩
    have hwf : p.length.toNat = p.value.length := hwf
    have hvs : needAll (fun j => place (.val j)) (Table.get r.val) 0 p.length.toNat =
        (.ok p.value : Calc ErrReg (List Byte)) :=
      needAll_eq_ok_iff.2 ⟨hwf.symm, by simpa using hr⟩
    rw [need_eq_ok_iff.2 htag]
    simp only [hvs]

theorem readProperty_ne_raised {place : PropField → Loc} {r : PropReg} {n : Byte} {e : ErrReg} :
    readProperty place r n ≠ .error (.raised e) := by
  unfold readProperty
  intro h
  split at h
  · rename_i h1
    cases h
    exact need_ne_raised h1
  · split at h
    · rename_i h1
      cases h
      exact needAll_ne_raised h1
    · cases h

/-- PR gives the record of the Property it holds, and only if it holds one (R106). -/
theorem prRecord_eq_ok_iff {s : State} {bs : List Byte} :
    prRecord s = .ok bs ↔ ∃ p, s.pr.Holds p ∧ bs = recordBytes p := by
  unfold prRecord
  constructor
  · intro h
    split at h
    · cases h
    · rename_i n hn
      obtain ⟨h1, h2⟩ := checkedLength_eq_ok_iff.1 hn
      split at h
      · cases h
      · rename_i p hp
        cases h
        obtain ⟨rfl, hwf, he, hv⟩ := readProperty_eq_ok_iff.1 hp
        exact ⟨p, ⟨hwf, he, h1, h2, hv⟩, rfl⟩
  · rintro ⟨p, ⟨hwf, he, h1, h2, hv⟩, rfl⟩
    rw [checkedLength_eq_ok_iff.2 ⟨h1, h2⟩]
    simp only [readProperty_eq_ok_iff.2 ⟨rfl, hwf, he, hv⟩]

/-- Encoding PR fails only as PropertyLengthMismatch, when PDC and VLEN are written and differ (R106). -/
theorem prRecord_eq_raised_iff {s : State} {e : ErrReg} :
    prRecord s = .error (.raised e) ↔
      e = ⟨.propertyLengthMismatch, .mismatch, false, 0⟩ ∧
      ∃ n m, s.pr.pdc = some n ∧ s.pr.vlen = some m ∧ n ≠ m := by
  rw [← checkedLength_eq_raised_iff (place := .pr)]
  unfold prRecord
  cases h : checkedLength Loc.pr s.pr false 0 with
  | error x => simp
  | ok n =>
    cases h2 : readProperty Loc.pr s.pr n with
    | ok p => simp [h2]
    | error x =>
      cases x with
      | raised e' => exact absurd h2 readProperty_ne_raised
      | unwritten l => simp [h2]

/-- The checks of `fenc` pass exactly when every entry's PDC and VLEN are written and equal (R137). -/
theorem checkEntries_eq_ok_iff {pt : Table PropReg} {i n : Nat} {lens : List Byte} :
    checkEntries pt i n = .ok lens ↔
      lens.length = n ∧ ∀ k len, lens[k]? = some len →
        (ptEntry pt (i + k)).pdc = some len ∧ (ptEntry pt (i + k)).vlen = some len := by
  induction n generalizing i lens with
  | zero => cases lens <;> simp [checkEntries]
  | succ n ih =>
    rw [checkEntries]
    constructor
    · intro h
      split at h
      · cases h
      · rename_i len hlen
        split at h
        · cases h
        · rename_i ls hls
          cases h
          obtain ⟨hl, hall⟩ := ih.1 hls
          refine ⟨by simp [hl], fun k x hk => ?_⟩
          cases k with
          | zero =>
            obtain rfl : len = x := by simpa using hk
            exact checkedLength_eq_ok_iff.1 hlen
          | succ k => simpa [Nat.add_assoc, Nat.add_comm 1] using hall k x (by simpa using hk)
    · rintro ⟨hl, hall⟩
      cases lens with
      | nil => simp at hl
      | cons len ls =>
        have h0 := hall 0 len rfl
        rw [Nat.add_zero] at h0
        rw [checkedLength_eq_ok_iff.2 h0]
        have : checkEntries pt (i + 1) n = .ok ls := by
          refine ih.2 ⟨by simpa using hl, fun k x hk => ?_⟩
          simpa [Nat.add_assoc, Nat.add_comm 1] using hall (k + 1) x (by simpa using hk)
        simp only [this]

/-- The checks of `fenc` fail at the lowest index whose PDC and VLEN differ (R137, R192). -/
theorem checkEntries_eq_raised_iff {pt : Table PropReg} {i n : Nat} {e : ErrReg} :
    checkEntries pt i n = .error (.raised e) ↔
      ∃ k, k < n ∧ e = ⟨.propertyLengthMismatch, .mismatch, true, BitVec.ofNat 8 (i + k)⟩ ∧
        (∃ a b, (ptEntry pt (i + k)).pdc = some a ∧ (ptEntry pt (i + k)).vlen = some b ∧ a ≠ b) ∧
        ∀ j, j < k → ∃ a, (ptEntry pt (i + j)).pdc = some a ∧ (ptEntry pt (i + j)).vlen = some a := by
  induction n generalizing i with
  | zero => simp [checkEntries]
  | succ n ih =>
    rw [checkEntries]
    cases h : checkedLength (Loc.pt i) (ptEntry pt i) true (BitVec.ofNat 8 i) with
    | error x =>
      cases x with
      | raised e' =>
        obtain ⟨rfl, a, b, ha, hb, hab⟩ := checkedLength_eq_raised_iff.1 h
        simp only [Except.error.injEq, Halt.raised.injEq]
        constructor
        · rintro rfl
          exact ⟨0, by omega, rfl, ⟨a, b, ha, hb, hab⟩, by omega⟩
        · rintro ⟨k, hk, rfl, -, hall⟩
          cases k with
          | zero => rfl
          | succ k =>
            obtain ⟨c, hc, hd⟩ := hall 0 (by omega)
            simp_all
      | unwritten l =>
        simp only [Except.error.injEq, reduceCtorEq, false_iff]
        rintro ⟨k, hk, rfl, ⟨a, b, ha, hb, hab⟩, hall⟩
        cases k with
        | zero =>
          have := (checkedLength_eq_raised_iff (place := .pt i) (b := true) (i := BitVec.ofNat 8 i)).2
            ⟨rfl, a, b, ha, hb, hab⟩
          simp [h] at this
        | succ k =>
          obtain ⟨c, hc, hd⟩ := hall 0 (by omega)
          have := (checkedLength_eq_ok_iff (place := .pt i) (b := true) (i := BitVec.ofNat 8 i)).2 ⟨hc, hd⟩
          simp [h] at this
    | ok len =>
      obtain ⟨hp, hv⟩ := checkedLength_eq_ok_iff.1 h
      have key : (∃ k, k < n ∧ e = ⟨.propertyLengthMismatch, .mismatch, true, BitVec.ofNat 8 (i + 1 + k)⟩ ∧
          (∃ a b, (ptEntry pt (i + 1 + k)).pdc = some a ∧ (ptEntry pt (i + 1 + k)).vlen = some b ∧ a ≠ b) ∧
          ∀ j, j < k → ∃ a, (ptEntry pt (i + 1 + j)).pdc = some a ∧ (ptEntry pt (i + 1 + j)).vlen = some a) ↔
          ∃ k, k < n + 1 ∧ e = ⟨.propertyLengthMismatch, .mismatch, true, BitVec.ofNat 8 (i + k)⟩ ∧
          (∃ a b, (ptEntry pt (i + k)).pdc = some a ∧ (ptEntry pt (i + k)).vlen = some b ∧ a ≠ b) ∧
          ∀ j, j < k → ∃ a, (ptEntry pt (i + j)).pdc = some a ∧ (ptEntry pt (i + j)).vlen = some a := by
        constructor
        · rintro ⟨k, hk, he, hbad, hall⟩
          refine ⟨k + 1, by omega, by rw [he, show i + 1 + k = i + (k + 1) by omega], ?_, fun j hj => ?_⟩
          · rwa [show i + (k + 1) = i + 1 + k by omega]
          · cases j with
            | zero => exact ⟨len, hp, hv⟩
            | succ j => rw [show i + (j + 1) = i + 1 + j by omega]; exact hall j (by omega)
        · rintro ⟨k, hk, he, hbad, hall⟩
          cases k with
          | zero =>
            obtain ⟨a, b, ha, hb, hab⟩ := hbad
            simp_all
          | succ k =>
            rw [show i + (k + 1) = i + 1 + k by omega] at he hbad
            refine ⟨k, by omega, he, hbad, fun j hj => ?_⟩
            have := hall (j + 1) (by omega)
            rwa [show i + (j + 1) = i + 1 + j by omega] at this
      rw [← key, ← ih]
      cases checkEntries pt (i + 1) n <;> simp

/-- Reading the entries gives the Properties they hold (R137). -/
theorem readEntries_eq_ok_iff {pt : Table PropReg} {i : Nat} {lens : List Byte} {ps : List Property} :
    readEntries pt i lens = .ok ps ↔
      ps.map Property.length = lens ∧ ∀ k p, ps[k]? = some p →
        p.WellFormed ∧ (ptEntry pt (i + k)).epc = some p.tag ∧
        ∀ j v, p.value[j]? = some v → Table.get (ptEntry pt (i + k)).val j = some v := by
  induction lens generalizing i ps with
  | nil => cases ps <;> simp [readEntries]
  | cons len lens ih =>
    rw [readEntries]
    constructor
    · intro h
      split at h
      · cases h
      · rename_i p hp
        obtain ⟨rfl, hrest⟩ := readProperty_eq_ok_iff.1 hp
        split at h
        · cases h
        · rename_i qs hqs
          cases h
          obtain ⟨hl, hall⟩ := ih.1 hqs
          refine ⟨by simp [hl], fun k q hk => ?_⟩
          cases k with
          | zero =>
            obtain rfl : p = q := by simpa using hk
            exact hrest
          | succ k => simpa [Nat.add_assoc, Nat.add_comm 1] using hall k q (by simpa using hk)
    · rintro ⟨hl, hall⟩
      cases ps with
      | nil => simp at hl
      | cons p qs =>
        simp only [List.map_cons, List.cons.injEq] at hl
        have hqs : readEntries pt (i + 1) lens = .ok qs := by
          refine ih.2 ⟨hl.2, fun k q hk => ?_⟩
          simpa [Nat.add_assoc, Nat.add_comm 1] using hall (k + 1) q (by simpa using hk)
        have h0 := hall 0 p rfl
        rw [Nat.add_zero] at h0
        rw [readProperty_eq_ok_iff.2 ⟨hl.1, h0⟩]
        simp only [hqs]

theorem readEntries_ne_raised {pt : Table PropReg} {i : Nat} {lens : List Byte} {e : ErrReg} :
    readEntries pt i lens ≠ .error (.raised e) := by
  induction lens generalizing i with
  | nil => simp [readEntries]
  | cons len lens ih =>
    rw [readEntries]
    intro h
    split at h
    · rename_i h1
      cases h
      exact readProperty_ne_raised h1
    · split at h
      · rename_i h1
        cases h
        exact ih h1
      · cases h

/-- The header registers give the header they hold (R137). -/
theorem readHeader_eq_ok_iff {r : FrameReg} {opc : Byte} {h : Header} :
    readHeader r opc = .ok h ↔
      h.opc = opc ∧ r.ehd1 = some h.ehd1 ∧ r.ehd2 = some h.ehd2 ∧ r.tid = some h.tid ∧ r.seoj = some h.seoj ∧
      r.deoj = some h.deoj ∧ r.esv = some h.esv := by
  obtain ⟨a, b, c, d, e, f, g⟩ := h
  unfold readHeader need
  cases r.ehd1 <;> cases r.ehd2 <;> cases r.tid <;> cases r.seoj <;> cases r.deoj <;> cases r.esv <;>
    simp [and_comm, and_assoc, and_left_comm, eq_comm]

theorem readHeader_ne_raised {r : FrameReg} {opc : Byte} {e : ErrReg} :
    readHeader r opc ≠ .error (.raised e) := by
  unfold readHeader need
  cases r.ehd1 <;> cases r.ehd2 <;> cases r.tid <;> cases r.seoj <;> cases r.deoj <;> cases r.esv <;> simp

/-- `fenc` has a Frame to encode exactly when FR and PT hold one (R37, R137). -/
theorem heldFrame_eq_ok_iff {s : State} {f : Frame} : heldFrame s = .ok f ↔ HoldsFrame s f := by
  unfold heldFrame
  constructor
  · intro h
    split at h
    · cases h
    · rename_i opc hopc
      split at h
      · cases h
      · rename_i np hnp
        split at h
        · rename_i heq
          subst heq
          split at h
          · cases h
          · rename_i lens hlens
            split at h
            · cases h
            · rename_i hd hhd
              split at h
              · cases h
              · rename_i ps hps
                cases h
                rw [need_eq_ok_iff] at hopc hnp
                obtain ⟨hl, hck⟩ := checkEntries_eq_ok_iff.1 hlens
                obtain ⟨rfl, h1, h2, h3, h4, h5, h6⟩ := readHeader_eq_ok_iff.1 hhd
                obtain ⟨rfl, hall⟩ := readEntries_eq_ok_iff.1 hps
                refine ⟨⟨by simpa using hl.symm, ?_⟩, ?_, ?_⟩
                · intro p hp
                  obtain ⟨k, hk⟩ := List.getElem?_of_mem hp
                  exact (hall k p hk).1
                · cases hfr : s.fr
                  simp_all [FrameReg.load]
                · intro k p hk
                  have h7 := hck k p.length (by simp [hk])
                  have h8 := hall k p hk
                  simp only [Nat.zero_add] at h7 h8
                  exact ⟨h8.1, h8.2.1, h7.1, h7.2, h8.2.2⟩
        · cases h
  · rintro ⟨⟨hn, hall⟩, hfr, hpt⟩
    have hlens : checkEntries s.pt 0 f.header.opc.toNat = .ok (f.props.map Property.length) := by
      refine checkEntries_eq_ok_iff.2 ⟨by simp [hn], fun k len hk => ?_⟩
      obtain ⟨p, hp, rfl⟩ : ∃ p, f.props[k]? = some p ∧ p.length = len := by simpa using hk
      obtain ⟨-, -, h1, h2, -⟩ := hpt k p hp
      simpa using ⟨h1, h2⟩
    have hhd : readHeader s.fr f.header.opc = .ok f.header := by
      rw [readHeader_eq_ok_iff, hfr]
      simp [FrameReg.load]
    have hps : readEntries s.pt 0 (f.props.map Property.length) = .ok f.props := by
      refine readEntries_eq_ok_iff.2 ⟨rfl, fun k p hk => ?_⟩
      obtain ⟨h0, h1, -, -, h2⟩ := hpt k p hk
      simpa using ⟨h0, h1, h2⟩
    rw [need_eq_ok_iff.2 (show s.fr.opc = some f.header.opc by rw [hfr]; rfl)]
    simp only [need_eq_ok_iff.2 (show s.fr.nprop = some f.header.opc by rw [hfr]; rfl), if_true, hlens, hhd, hps]

/-- Encoding the Frame fails as FrameInvariant where OPC and NPROP differ, and otherwise as PropertyLengthMismatch at the lowest
index whose PDC and VLEN differ (R137, R192). -/
theorem heldFrame_eq_raised_iff {s : State} {e : ErrReg} :
    heldFrame s = .error (.raised e) ↔
      ∃ opc np, s.fr.opc = some opc ∧ s.fr.nprop = some np ∧
        ((opc ≠ np ∧ e = ⟨.frameInvariant, .mismatch, false, 0⟩) ∨
         (opc = np ∧ checkEntries s.pt 0 np.toNat = .error (.raised e))) := by
  unfold heldFrame
  cases hopc : s.fr.opc with
  | none => simp [need]
  | some opc =>
    cases hnp : s.fr.nprop with
    | none => simp [need]
    | some np =>
      simp only [need, Option.some.injEq, exists_and_left, exists_eq_left']
      by_cases heq : opc = np
      · simp only [heq, if_true, ne_eq, not_true, false_and, true_and, false_or]
        cases hc : checkEntries s.pt 0 np.toNat with
        | error x => simp
        | ok lens =>
          simp only [reduceCtorEq, iff_false]
          cases hh : readHeader s.fr np with
          | error x =>
            simp only [Except.error.injEq]
            rintro rfl
            exact readHeader_ne_raised hh
          | ok hd =>
            cases hr : readEntries s.pt 0 lens with
            | error x =>
              simp only [Except.error.injEq]
              rintro rfl
              exact readEntries_ne_raised hr
            | ok ps => simp
      · simp [heq, eq_comm]

end Sys2Proof.Machine
end

