-- ==== Sys2Proof/Laws/Exec.lean ====
section
/-! SUPPORT. Everything a completion can do, operation by operation: what it commits and what it raises. Every claim about all
operations is derived from these. -/

namespace Sys2Proof.Machine

/-- What operation `i` commits from `s`: the state `u` before STATE and ERR are set (the `commit` of its rule). -/
def Commits (i : Instr) (s u : State) : Prop :=
  match i with
  | .pchk => (∃ n, s.pr.pdc = some n ∧ s.pr.vlen = some n) ∧ u = s
  | .pdec => ∃ p, p.WellFormed ∧ 4 + 2 * p.value.length ≤ s.inLen.toNat ∧
      Spells s.params.hexInLower (ibufText s) 0 (recordBytes p) ∧
      u = { s with pr := s.pr.load p, consumed := BitVec.ofNat 32 (4 + 2 * p.value.length) }
  | .penc => ∃ p, s.pr.Holds p ∧ u = writeOut s (recordBytes p)
  | .pench => ∃ p, s.pr.Holds p ∧ u = writeOut s (hex s.params.hexCase (recordBytes p))
  | .fdec => ∃ f, f.WellFormed ∧ 2 * (frameBytes f).length ≤ s.inLen.toNat ∧
      Spells s.params.hexInLower (ibufText s) 0 (frameBytes f) ∧
      u = { s with
        fr := FrameReg.load f.header
        pt := Table.overwrite s.pt (loadedEntries s.pt 0 f.props)
        consumed := BitVec.ofNat 32 (2 * (frameBytes f).length) }
  | .fenc => ∃ f, HoldsFrame s f ∧ u = writeOut s (frameBytes f)
  | .fench => ∃ f, HoldsFrame s f ∧ u = writeOut s (hex s.params.hexCase (frameBytes f))
  | .h2b => ∃ bs, s.inLen.toNat = 2 * bs.length ∧ Spells s.params.hexInLower (ibufText s) 0 bs ∧
      u = { writeOut s bs with consumed := s.inLen }
  | .b2h => ∃ bs, s.inLen.toNat = bs.length ∧ (∀ k b, bs[k]? = some b → ibufText s k = some b) ∧
      u = { writeOut s (hex s.params.hexCase bs) with consumed := s.inLen }
  | .clr => u = { s with herr := false }

theorem textBytes_eq_ok_iff {lower : Bool} {t : Text} {L : Nat} {bs : List Byte} :
    textBytes lower t L = .ok bs ↔ L = 2 * bs.length ∧ Spells lower t 0 bs := by
  unfold textBytes
  split
  · simp only [reduceCtorEq, false_iff, not_and]
    omega
  · rw [mapRaised_eq_ok_iff, readHexBytes_eq_ok_iff]
    refine and_congr_left fun _ => ?_
    omega

/-- H2B fails as ODD on odd length, and otherwise as BADHEX where there is a first invalid digit (R161, R192). -/
theorem textBytes_eq_raised_iff {lower : Bool} {t : Text} {L : Nat} {e : ErrReg} :
    textBytes lower t L = .error (.raised e) ↔
      (L % 2 = 1 ∧ e = ⟨.malformedPayload, .odd, false, 0⟩) ∨
      (L % 2 = 0 ∧ FirstBadWithin lower t 0 L ∧ e = ⟨.malformedPayload, .badHex, false, 0⟩) := by
  unfold textBytes
  split
  · rename_i h
    simp [h, eq_comm]
  · rename_i h
    rw [mapRaised_eq_raised_iff, show L % 2 = 1 ↔ False by simp [h], show L % 2 = 0 ↔ True by simp; omega]
    simp only [readHexBytes_eq_raised_iff, show 2 * (L / 2) = L by omega]
    constructor
    · rintro ⟨c, ⟨rfl, hb⟩, rfl⟩
      simp [hb]
    · simp only [false_and, true_and, false_or]
      rintro ⟨hb, rfl⟩
      exact ⟨_, ⟨rfl, hb⟩, rfl⟩

/-- An operation that answers a next state has committed and set DONE_OK (R191), or has raised an error it may report and
changed nothing but STATE and ERR (R190, R189). -/
theorem exec_next_cases {i : Instr} {s t : State} (h : exec i s = .next t) :
    (∃ u, Commits i s u ∧ t = succeed u) ∨ ∃ e, MayReport i e ∧ e.code ≠ .none ∧ t = raiseErr s e := by
  cases i <;> simp only [exec, execPchk, execPdec, execPenc, execPench, execFdec, execFenc, execFench, execH2b, execB2h,
    execClr] at h <;> rcases complete_eq_next_iff.1 h with ⟨v, hv, rfl⟩ | ⟨e, he, rfl⟩
  case pchk.inl => exact .inl ⟨_, ⟨⟨v, checkedLength_eq_ok_iff.1 hv⟩, rfl⟩, rfl⟩
  case pchk.inr =>
    obtain ⟨rfl, -⟩ := checkedLength_eq_raised_iff.1 he
    exact .inr ⟨_, .inr rfl, by simp, rfl⟩
  case pdec.inl =>
    obtain ⟨p, used⟩ := v
    obtain ⟨hwf, rfl, hle, hs⟩ := pdec_eq_ok_iff.1 (mapRaised_eq_ok_iff.1 hv)
    exact .inl ⟨_, ⟨p, hwf, by omega, hs, rfl⟩, rfl⟩
  case pdec.inr =>
    obtain ⟨c, hc, rfl⟩ := mapRaised_eq_raised_iff.1 he
    rcases pdec_raised hc with rfl | rfl
    · exact .inr ⟨_, .inr (.inl rfl), by simp, rfl⟩
    · exact .inr ⟨_, .inr (.inr rfl), by simp, rfl⟩
  case penc.inl =>
    obtain ⟨p, hp, rfl⟩ := prRecord_eq_ok_iff.1 hv
    exact .inl ⟨_, ⟨p, hp, rfl⟩, rfl⟩
  case pench.inl =>
    obtain ⟨p, hp, rfl⟩ := prRecord_eq_ok_iff.1 hv
    exact .inl ⟨_, ⟨p, hp, rfl⟩, rfl⟩
  case penc.inr | pench.inr =>
    obtain ⟨rfl, -⟩ := prRecord_eq_raised_iff.1 he
    exact .inr ⟨_, .inr rfl, by simp, rfl⟩
  case fdec.inl =>
    obtain ⟨f, last⟩ := v
    obtain ⟨hwf, rfl, hle, hs⟩ := fdec_eq_ok_iff.1 hv
    exact .inl ⟨_, ⟨f, hwf, hle, hs, rfl⟩, rfl⟩
  case fdec.inr =>
    have hr := fdec_raised he
    exact .inr ⟨_, .inr hr, by simp [hr.1], rfl⟩
  case fenc.inl => exact .inl ⟨_, ⟨v, heldFrame_eq_ok_iff.1 hv, rfl⟩, rfl⟩
  case fench.inl => exact .inl ⟨_, ⟨v, heldFrame_eq_ok_iff.1 hv, rfl⟩, rfl⟩
  case fenc.inr | fench.inr =>
    obtain ⟨opc, np, -, -, ⟨-, rfl⟩ | ⟨-, hc⟩⟩ := heldFrame_eq_raised_iff.1 he
    · exact .inr ⟨_, .inr (.inl rfl), by simp, rfl⟩
    · obtain ⟨k, -, rfl, -⟩ := checkEntries_eq_raised_iff.1 hc
      exact .inr ⟨_, .inr (.inr ⟨rfl, rfl, rfl⟩), by simp, rfl⟩
  case h2b.inl =>
    obtain ⟨hl, hs⟩ := textBytes_eq_ok_iff.1 hv
    exact .inl ⟨_, ⟨v, hl, hs, rfl⟩, rfl⟩
  case h2b.inr =>
    rcases textBytes_eq_raised_iff.1 he with ⟨-, rfl⟩ | ⟨-, -, rfl⟩
    · exact .inr ⟨_, .inr (.inl rfl), by simp, rfl⟩
    · exact .inr ⟨_, .inr (.inr rfl), by simp, rfl⟩
  case b2h.inl =>
    obtain ⟨hl, hr⟩ := needAll_eq_ok_iff.1 hv
    exact .inl ⟨_, ⟨v, hl.symm, by simpa using hr, rfl⟩, rfl⟩
  case b2h.inr => exact absurd he needAll_ne_raised
  case clr.inl => exact .inl ⟨_, rfl, rfl⟩
  case clr.inr => cases he

/-- An operation stops only on a read of an unwritten location (R44). -/
theorem exec_fault_cases {i : Instr} {s : State} {f : Fault} (h : exec i s = .fault f) : ∃ l, f = .unwritten l := by
  cases i <;> simp only [exec, execPchk, execPdec, execPenc, execPench, execFdec, execFenc, execFench, execH2b, execB2h,
    execClr] at h <;> obtain ⟨l, -, hl⟩ := complete_eq_fault_iff.1 h <;> exact ⟨l, hl⟩

/-- No operation is refused by the model. -/
theorem exec_ne_refused {i : Instr} {s : State} {r : Refusal} : exec i s ≠ .refused r := by
  intro h
  cases i <;> simp only [exec, execPchk, execPdec, execPenc, execPench, execFdec, execFenc, execFench, execH2b, execB2h,
    execClr] at h <;> exact complete_ne_refused h

/-- What `Commits` says is what the operation does. -/
theorem exec_of_commits {i : Instr} {s u : State} (h : Commits i s u) : exec i s = .next (succeed u) := by
  cases i <;> simp only [exec, execPchk, execPdec, execPenc, execPench, execFdec, execFenc, execFench, execH2b, execB2h,
    execClr] <;> refine complete_eq_next_iff.2 (.inl ?_)
  case pchk =>
    obtain ⟨⟨n, hn⟩, rfl⟩ := h
    exact ⟨n, checkedLength_eq_ok_iff.2 hn, rfl⟩
  case pdec =>
    obtain ⟨p, hwf, hle, hs, rfl⟩ := h
    exact ⟨(p, _), mapRaised_eq_ok_iff.2 (pdec_eq_ok_iff.2 ⟨hwf, rfl, by omega, hs⟩), rfl⟩
  case penc | pench =>
    obtain ⟨p, hp, rfl⟩ := h
    exact ⟨_, prRecord_eq_ok_iff.2 ⟨p, hp, rfl⟩, rfl⟩
  case fdec =>
    obtain ⟨f, hwf, hle, hs, rfl⟩ := h
    exact ⟨(f, _), fdec_eq_ok_iff.2 ⟨hwf, rfl, hle, hs⟩, rfl⟩
  case fenc | fench =>
    obtain ⟨f, hf, rfl⟩ := h
    exact ⟨f, heldFrame_eq_ok_iff.2 hf, rfl⟩
  case h2b =>
    obtain ⟨bs, hl, hs, rfl⟩ := h
    exact ⟨bs, textBytes_eq_ok_iff.2 ⟨hl, hs⟩, rfl⟩
  case b2h =>
    obtain ⟨bs, hl, hs, rfl⟩ := h
    exact ⟨bs, needAll_eq_ok_iff.2 ⟨hl.symm, by simpa using hs⟩, rfl⟩
  case clr =>
    obtain rfl := h
    exact ⟨(), rfl, rfl⟩

end Sys2Proof.Machine
end

