-- ==== Sys2Proof/Laws/PerInstr.lean ====
section
/-! SUPPORT. Statements about every instruction as syntax, one lemma per constructor. -/

namespace Sys2Proof.Laws

/-- The families of the opcode table (30_encoding.md R72). -/
inductive OpFamily where
  | property
  | frame
  | payload
  | control
  deriving DecidableEq, Repr

/-- The family of each operation, by the file of the spec that gives its rule (R72). -/
def familyOf : Instr → OpFamily
  | .pchk | .pdec | .penc | .pench => .property
  | .fdec | .fenc | .fench => .frame
  | .h2b | .b2h => .payload
  | .clr => .control

/-- The high nibble of a family's op codes (R72: "0 is property, 1 is frame, 2 is payload, 3 is control"). -/
def OpFamily.nibble : OpFamily → BitVec 4
  | .property => 0#4
  | .frame => 1#4
  | .payload => 2#4
  | .control => 3#4

/-- "The high nibble groups the families" (R72). -/
def HighNibble.Statement (i : Instr) : Prop := (encode i).extractLsb' 4 4 = (familyOf i).nibble

theorem HighNibble.pchk : HighNibble.Statement .pchk := rfl
theorem HighNibble.pdec : HighNibble.Statement .pdec := rfl
theorem HighNibble.penc : HighNibble.Statement .penc := rfl
theorem HighNibble.pench : HighNibble.Statement .pench := rfl
theorem HighNibble.fdec : HighNibble.Statement .fdec := rfl
theorem HighNibble.fenc : HighNibble.Statement .fenc := rfl
theorem HighNibble.fench : HighNibble.Statement .fench := rfl
theorem HighNibble.h2b : HighNibble.Statement .h2b := rfl
theorem HighNibble.b2h : HighNibble.Statement .b2h := rfl
theorem HighNibble.clr : HighNibble.Statement .clr := rfl

end Sys2Proof.Laws
end

