-- ==== Sys2Proof/Tests/Slice0.lean ====
section
/-! SUPPORT. The model's own tests. Expected results come from spec/: the examples of the rules and the vectors of
95_test_vectors.md, named in each comment. Then, for each statement with hypotheses, a witness that meets them. -/

namespace Sys2Proof.Tests

open Sys2Proof.Machine

/-! ### Helpers -/

/-- The next state of an outcome, if it is one. -/
def nextOf : Host.Outcome State Fault Refusal → Option State
  | .next s => some s
  | .fault _ => none
  | .refused _ => none

/-- The fault of an outcome, if it is one. -/
def faultOf : Host.Outcome State Fault Refusal → Option Fault
  | .next _ => none
  | .fault f => some f
  | .refused _ => none

/-- The ASCII text of a string. -/
def txt (s : String) : List Byte := asciiBytes s.toList

/-- The reset state with `bs` in IBUF and IN_LEN set to its length. -/
def given (bs : List Byte) : State :=
  { State.reset with ibuf := Table.numbered 0 bs, inLen := BitVec.ofNat 32 bs.length }

/-- `s` with HEX_CASE = LOWER. -/
def lowerCase (s : State) : State := { s with params := { s.params with hexCase := .lower } }

/-- The reset state with PR = {EPC, PDC, VLEN, VAL}. -/
def withPr (epc pdc vlen : Byte) (val : List Byte) : State :=
  { State.reset with pr := ⟨some epc, some pdc, some vlen, Table.numbered 0 val⟩ }

/-- The Frame of vector F-E4. -/
def frameE4 : Frame where
  header := ⟨0x10, 0x81, 0x0002, 0x05FF01, 0x028801, 0x61, 2⟩
  props := [⟨0x80, 1, [0x30]⟩, ⟨0xE1, 2, [0x12, 0x34]⟩]

/-- The reset state with FR and PT holding a Frame. -/
def withFrame (f : Frame) : State :=
  { State.reset with fr := FrameReg.load f.header, pt := Table.overwrite [] (loadedEntries [] 0 f.props) }

/-- STATUS and ERR as the host reads them after an operation. -/
def report (o : Host.Outcome State Fault Refusal) : Option (Word × Word) :=
  (nextOf o).map fun t => (statusWord t, errWord t.err)

/-- The output of an operation: the listed bytes of OBUF, and OUT_LEN. -/
def output (o : Host.Outcome State Fault Refusal) : Option (List Byte × Word) :=
  (nextOf o).map fun t => (t.obuf.map (·.2), t.outLen)

/-! ### Decoding: the words of R72 written out bit by bit -/

/-- Property family: `encoding` 00000001 to 00000100 of the opcode table. -/
theorem test_decode_property : decodeTableWord 8 0b00000001 = some .pchk ∧ decodeTableWord 8 0b00000010 = some .pdec ∧
    decodeTableWord 8 0b00000011 = some .penc ∧ decodeTableWord 8 0b00000100 = some .pench := by decide

/-- Frame family: `encoding` 00010001 to 00010011. -/
theorem test_decode_frame : decodeTableWord 8 0b00010001 = some .fdec ∧ decodeTableWord 8 0b00010010 = some .fenc ∧
    decodeTableWord 8 0b00010011 = some .fench := by decide

/-- Payload family: `encoding` 00100001 and 00100010; control family: 00110000. -/
theorem test_decode_payload_control : decodeTableWord 8 0b00100001 = some .h2b ∧
    decodeTableWord 8 0b00100010 = some .b2h ∧ decodeTableWord 8 0b00110000 = some .clr := by decide

/-- R73: the ends of every range of illegal values. -/
theorem test_decode_illegal : ([0x00, 0x05, 0x10, 0x14, 0x20, 0x23, 0x2F, 0x31, 0xFF].map (decodeTableWord 8)).all
    (· == none) := by decide

/-- R72: the op code table by its high nibbles, and no two rows share a value. -/
theorem test_rows_distinct : opRows.Pairwise (fun a b => a.1 ≠ b.1) := by decide

/-! ### Well-formedness: an ill-formed term for each check -/

theorem test_params_default_ok : Params.default.WellFormed := by decide
/-- R8: IBUF_SIZE below 131094. -/
theorem test_params_too_small : ¬ ({ Params.default with ibufSize := 131093 }).WellFormed := by decide
/-- D30: `2 * IBUF_SIZE` not below 2^32. -/
theorem test_params_too_large : ¬ ({ Params.default with ibufSize := 2147483648 }).WellFormed := by decide
/-- R33: `length != value.size()`. -/
theorem test_property_ill_formed : ¬ (⟨0xE7, 2, [0]⟩ : Property).WellFormed := by decide
/-- R37: `propertyCount != properties.size()`. -/
theorem test_frame_count_ill_formed : ¬ ({ frameE4 with props := [⟨0x80, 1, [0x30]⟩] }).WellFormed := by decide
/-- R37: a property of the list that is not well formed. -/
theorem test_frame_prop_ill_formed :
    ¬ ({ frameE4 with props := [⟨0x80, 1, [0x30]⟩, ⟨0xE1, 2, [0x12]⟩] }).WellFormed := by decide

/-! ### Hex primitives -/

/-- X1 to X3. -/
theorem test_hexval : (txt "09AFaf").map (hexval true) = [some 0, some 9, some 10, some 15, some 10, some 15] ∧
    (txt "af").map (hexval false) = [none, none] ∧ (txt "G x").map (hexval true) = [none, none, none] ∧
    [0x0D#8, 0x80#8].map (hexval true) = [none, none] := by decide
/-- X4, X5. -/
theorem test_hex : readHexByte true (ibufText (given (txt "A0"))) 0 = .ok 0xA0#8 ∧
    hex .upper [0x00, 0xFF, 0x5A] = txt "00FF5A" ∧ hex .lower [0x00, 0xFF, 0x5A] = txt "00ff5a" := by decide

/-! ### Vectors: at most two per operation -/

/-- P-C2. -/
theorem test_pchk_mismatch : report (exec .pchk (withPr 0xE7 2 1 [])) = some (0x3, 0x403) := by decide
/-- P-C4: EPC is not read. -/
theorem test_pchk_epc_unwritten : report (exec .pchk
    { State.reset with pr := ⟨none, some 255, some 255, []⟩ }) = some (0x2, 0) := by decide
/-- P-D3. -/
theorem test_pdec : (nextOf (exec .pdec (given (txt "E704000001F4")))).map (fun t => (t.pr, t.consumed)) =
    some (⟨some 0xE7, some 4, some 4, [(0, 0x00), (1, 0x00), (2, 0x01), (3, 0xF4)]⟩, 12) := by decide
/-- P-D5. -/
theorem test_pdec_bad_value : report (exec .pdec (given (txt "E70400000GF4"))) = some (0x3, 0x201) := by decide
/-- P-E1. -/
theorem test_penc : output (exec .penc (withPr 0xE7 4 4 [0x00, 0x00, 0x01, 0xF4])) =
    some ([0xE7, 0x04, 0x00, 0x00, 0x01, 0xF4], 6) := by decide
/-- P-E3. -/
theorem test_penc_mismatch : report (exec .penc (withPr 0xE7 4 3 [])) = some (0x3, 0x403) := by decide
/-- P-H1. -/
theorem test_pench : output (exec .pench (withPr 0xE7 4 4 [0x00, 0x00, 0x01, 0xF4])) =
    some ([0x45, 0x37, 0x30, 0x34, 0x30, 0x30, 0x30, 0x30, 0x30, 0x31, 0x46, 0x34], 12) := by decide
/-- P-H2. -/
theorem test_pench_lower : output (exec .pench (lowerCase (withPr 0xAB 1 1 [0xCD]))) = some (txt "ab01cd", 6) := by decide
/-- F-D3: every header field, and no property. -/
theorem test_fdec : (nextOf (exec .fdec (given (txt "1081ABCD0123454567896200")))).map (fun t => (t.fr, t.pt, t.consumed)) =
    some (⟨some 0x10, some 0x81, some 0xABCD, some 0x012345, some 0x456789, some 0x62, some 0, some 0⟩, [], 24) := by decide
/-- F-D12: property 1 is missing. -/
theorem test_fdec_missing_property : report (exec .fdec (given (txt "1081000105FF010288016202E700"))) =
    some (0x3, 0x11102) := by decide
/-- F-E8: no property, and PT is not read. -/
theorem test_fenc_empty : output (exec .fenc (withFrame { frameE4 with header := { frameE4.header with opc := 0 }, props := [] })) =
    some ([0x10, 0x81, 0x00, 0x02, 0x05, 0xFF, 0x01, 0x02, 0x88, 0x01, 0x61, 0x00], 12) := by decide
/-- F-E7: the OPC check comes first. -/
theorem test_fenc_priority : report (exec .fenc { withFrame frameE4 with
    fr := { FrameReg.load frameE4.header with opc := some 3 }
    pt := [(0, ⟨some 0x80, some 1, some 1, [(0, 0x30)]⟩), (1, ⟨some 0xE1, some 2, some 1, []⟩)] }) =
    some (0x3, 0x404) := by decide
/-- F-E4. -/
theorem test_fench : output (exec .fench (withFrame frameE4)) =
    some (txt "1081000205FF010288016102800130E1021234", 38) := by decide
/-- F-E6 for FENCH: property 1. -/
theorem test_fench_mismatch : report (exec .fench { withFrame frameE4 with
    pt := [(0, ⟨some 0x80, some 1, some 1, [(0, 0x30)]⟩), (1, ⟨some 0xE1, some 2, some 1, []⟩)] }) =
    some (0x3, 0x11403) := by decide
/-- The last operation of P3: bytes of OBUF beyond OUT_LEN keep the earlier text. -/
theorem test_h2b_stale : output (exec .h2b { given (txt "E704000001F4") with obuf := Table.numbered 0 (txt "E704000001F4") }) =
    some ([0xE7, 0x04, 0x00, 0x00, 0x01, 0xF4, 0x30, 0x30, 0x30, 0x31, 0x46, 0x34], 6) := by decide
/-- H-9: odd length is checked first. -/
theorem test_h2b_odd : report (exec .h2b (given (txt "G"))) = some (0x3, 0x305) := by decide
/-- B-2. -/
theorem test_b2h : output (exec .b2h (given [0x00, 0xFF, 0x5A])) = some ([0x30, 0x30, 0x46, 0x46, 0x35, 0x41], 6) := by decide
/-- B-3. -/
theorem test_b2h_lower : output (exec .b2h (lowerCase (given [0x00, 0xFF, 0x5A]))) = some (txt "00ff5a", 6) := by decide
/-- K-1. -/
theorem test_clr : report (exec .clr { State.reset with
    opState := .doneErr, herr := true, err := ⟨.malformedFrame, .short, false, 0⟩ }) = some (0x2, 0) := by decide
/-- The STATUS word of R175's example. -/
theorem test_status_word : statusWord { State.reset with opState := .doneErr, herr := true } = 0x103 := by decide
/-- K-2: an illegal op code, on the step after its issue. -/
theorem test_illegal : report (step (State.reset.withFetchWord 8 0x00)) = some (0x3, 0x006) := by decide
/-- K-10: the step after the issue of B2H straight after reset. -/
theorem test_b2h_after_reset : output (step (State.reset.withFetchWord 8 0x22)) = some ([], 0) := by decide
/-- K-11: FENC straight after reset. -/
theorem test_fenc_after_reset : faultOf (step (State.reset.withFetchWord 8 0x12)) = some (.unwritten (.fr .opc)) := by decide
/-- D18: nothing is placed and no operation runs after reset. -/
theorem test_reset_idles : nextOf (step State.reset) = some State.reset := by decide

/-! ### Host accesses and the script -/

/-- K-4: a CMD write while BUSY. -/
theorem test_busy_write : (fun t => (t.pendingOp, t.herr)) (hostWrite (issue .reset 0x12) .cmd 0x11) = (0x12, true) := by decide
/-- K-5, K-6, K-7: an out-of-range length, a value too wide, a read-only register. -/
theorem test_refused_writes : hostWrite .reset .inLen 131095 = { State.reset with herr := true } ∧
    hostWrite .reset (.fr .seoj) 0x1000000 = { State.reset with herr := true } ∧
    hostWrite .reset .status 0 = { State.reset with herr := true } := by decide
/-- P1's first lines: what the script stands for, and a write of 24 bits that is accepted. -/
theorem test_expand : expandScript [.wrbufText 0 ['1', '0'], .wr .inLen 36, .run .fdec] =
    [.wr (.ibuf 0) 0x31, .wr (.ibuf 1) 0x30, .wr .inLen 36, .wr .cmd 0x11, .rd .status, .backIfBusy] ∧
    (hostWrite .reset (.fr .seoj) 0xFFFFFF).fr.seoj = some 0xFFFFFF := by decide
/-- P4, write first: the write is refused, and FDEC's turn comes after. -/
theorem test_busy_write_turn : (nextOf (step { issue .reset 0x11 with
    host := ⟨[.wr .inLen 0], 0, none, none⟩, turns := [.host, .engine] })).map
      (fun t => (t.herr, t.opState, t.host.pos, t.turns)) = some (true, .busy, 1, [.engine]) := by decide
/-- R88: what a write carries. -/
theorem test_carries : HostOp.carries (.wr (.fr .tid) 2) = some (16, 2) ∧ HostOp.carries (.rd .err) = none := by decide

/-! ### Witnesses: for each statement with hypotheses, a state and operands that meet them, clause by clause -/

/-- A text that reads as `bs` spells `bs`. -/
theorem spells_of_read {lower : Bool} {t : Text} {p n : Nat} {bs : List Byte}
    (h : readHexBytes lower t p n = .ok bs) : Spells lower t p bs := (readHexBytes_eq_ok_iff.1 h).2

/-- A first unwritten character, found by reading the characters before it. -/
theorem firstUnwritten_of_read {lower : Bool} {u : Text} {p k : Nat} (h : u (p + k) = none)
    (hd : ∀ j, j < k → (u (p + j)).any (fun c => (hexval lower c).isSome) = true) : FirstUnwrittenAt lower u p k := by
  refine ⟨h, fun j hj => ?_⟩
  obtain ⟨c, hc, hv⟩ := (Option.any_eq_true _ _).1 (hd j hj)
  obtain ⟨v, hv⟩ := Option.isSome_iff_exists.1 hv
  exact ⟨c, v, hc, hv⟩

/-- A text whose reading reports BADHEX has a first invalid digit. -/
theorem firstBad_of_read {lower : Bool} {t : Text} {p n : Nat}
    (h : readHexBytes lower t p n = .error (.raised .badHex)) : FirstBadWithin lower t p (2 * n) :=
  (readHexBytes_eq_raised_iff.1 h).2

/-- The state in which the host has copied the output of `t` to the input. -/
def copied (t : State) : State := { t with ibuf := t.obuf, inLen := t.outLen }

theorem copied_spec {t : State} (h : t.outLen.toNat ≤ t.params.ibufSize) : CopiedOut t (copied t) :=
  ⟨h, rfl, rfl, fun _ _ => rfl⟩

theorem witness_IllegalOpCodes : (∃ e, decode 0x00#8 = .error e) ∧ (∃ e, decode 0xFF#8 = .error e) ∧
    State.reset.opState ≠ .busy := ⟨⟨_, rfl⟩, ⟨_, rfl⟩, by decide⟩

theorem witness_EngineTurnRunsTheDecodedOperation :
    (issue .reset 0x30).opState = .busy ∧ decode (issue .reset 0x30).pendingOp = .ok .clr ∧
    (issue .reset 0x30).turns = [] ∧ ({ issue .reset 0x30 with turns := [.engine] } : State).turns = .engine :: [] :=
  ⟨rfl, rfl, rfl, rfl⟩

theorem witness_IllegalOpCompletion : (issue .reset 0xFF).opState = .busy ∧
    decode (issue .reset 0xFF).pendingOp = .error (.illegalOp 0xFF) ∧ turnTaken (issue .reset 0xFF) = .engine :=
  ⟨rfl, rfl, rfl⟩

theorem witness_EngineTurnEndsTheOperation :
    (issue .reset 0x12).opState = .busy ∧ turnTaken (issue .reset 0x12) = .engine := ⟨rfl, rfl⟩

theorem witness_ResetInput : ({ issue .reset 0x11 with turns := [.reset] } : State).turns = .reset :: [] := rfl

theorem witness_PchkChecksConstruction :
    ((withPr 0 255 255 []).pr.pdc = some 255 ∧ (withPr 0 255 255 []).pr.vlen = some 255) ∧
    ((withPr 0 0 255 []).pr.pdc = some 0 ∧ (withPr 0 0 255 []).pr.vlen = some 255 ∧ (0 : Byte) ≠ 255) ∧
    State.reset.pr.pdc = none := by decide

/-- P-D7, the shortest record. -/
theorem witness_PdecDecodes : (⟨0xE7, 0, []⟩ : Property).WellFormed ∧
    4 + 2 * (0 : Byte).toNat ≤ (given (txt "E700")).inLen.toNat ∧
    Spells true (ibufText (given (txt "E700"))) 0 [0xE7, 0] :=
  ⟨by decide, by decide, spells_of_read (n := 2) (by decide)⟩

/-- P-D2, P-D6, P-D4 and P-D5: each clause; and texts whose length digits, and whose second value byte, are unwritten. -/
theorem witness_PdecReportsShortAndBadHex :
    (given (txt "E7")).inLen.toNat < 4 ∧
    (4 ≤ (given (txt "XY00")).inLen.toNat ∧ FirstBadWithin true (ibufText (given (txt "XY00"))) 0 4) ∧
    (4 ≤ (given (txt "E704000001")).inLen.toNat ∧ Spells true (ibufText (given (txt "E704000001"))) 0 [0xE7, 4] ∧
      (given (txt "E704000001")).inLen.toNat < 4 + 2 * (4 : Byte).toNat) ∧
    (Spells true (ibufText (given (txt "E70400000GF4"))) 0 [0xE7, 4] ∧
      4 + 2 * (4 : Byte).toNat ≤ (given (txt "E70400000GF4")).inLen.toNat ∧
      FirstBadWithin true (ibufText (given (txt "E70400000GF4"))) 4 (2 * (4 : Byte).toNat)) ∧
    FirstUnwrittenAt true (ibufText { given (txt "E7") with inLen := 4 }) 0 2 ∧
    (let s := { given (txt "E70200") with inLen := 8 };
      Spells true (ibufText s) 0 [0xE7, 2] ∧ 4 + 2 * (2 : Byte).toNat ≤ s.inLen.toNat ∧ FirstUnwrittenAt true (ibufText s) 4 2) :=
  ⟨by decide, ⟨by decide, firstBad_of_read (n := 2) (by decide)⟩,
    ⟨by decide, spells_of_read (n := 2) (by decide), by decide⟩,
    ⟨spells_of_read (n := 2) (by decide), by decide, firstBad_of_read (n := 4) (by decide)⟩,
    firstUnwritten_of_read (by decide) (by decide),
    ⟨spells_of_read (n := 2) (by decide), by decide, firstUnwritten_of_read (by decide) (by decide)⟩⟩

/-- The hypotheses of PencEncodes, PenchEncodes and PropertyRoundTrip: a held Property, a mismatch, an unwritten EPC, an unwritten
value byte, an unwritten PDC. -/
theorem witness_PencEncodes_PenchEncodes :
    (PropReg.unwritten.load ⟨0xAB, 1, [0xCD]⟩).Holds ⟨0xAB, 1, [0xCD]⟩ ∧
    ((withPr 0 4 3 []).pr.pdc = some 4 ∧ (withPr 0 4 3 []).pr.vlen = some 3 ∧ (4 : Byte) ≠ 3) ∧
    ((⟨none, some 0, some 0, []⟩ : PropReg).epc = none) ∧
    ((withPr 0 1 1 []).pr.pdc = some 1 ∧ (withPr 0 1 1 []).pr.vlen = some 1 ∧
      ∃ j, j < (1 : Byte).toNat ∧ Table.get (withPr 0 1 1 []).pr.val j = none) ∧
    State.reset.pr.pdc = none :=
  ⟨load_holds _ (by decide), by decide, rfl, ⟨rfl, rfl, 0, by decide, rfl⟩, rfl⟩

theorem witness_PropertyRoundTrip :
    let s := { State.reset with pr := PropReg.unwritten.load ⟨0xAB, 1, [0xCD]⟩ }
    let t := succeed (writeOut s (txt "AB01CD"))
    s.params.WellFormed ∧ s.pr.Holds ⟨0xAB, 1, [0xCD]⟩ ∧ CasesAgree s.params ∧ exec .pench s = .next t ∧
      CopiedOut t (copied t) :=
  ⟨by decide, load_holds _ (by decide), .inl rfl, rfl, copied_spec (by decide)⟩

/-- The shortest frame (F-D3) and one with properties (F-D4), each as long as the text. -/
theorem witness_FdecDecodes :
    let s := given (txt "1081ABCD0123454567896200")
    let s' := given (txt "1081000205FF010288016102800130E1021234")
    let bytes : List Byte := [0x10, 0x81, 0xAB, 0xCD, 0x01, 0x23, 0x45, 0x45, 0x67, 0x89, 0x62, 0x00]
    let bytes' : List Byte :=
      [0x10, 0x81, 0x00, 0x02, 0x05, 0xFF, 0x01, 0x02, 0x88, 0x01, 0x61, 0x02, 0x80, 1, 0x30, 0xE1, 2, 0x12, 0x34]
    (2 * bytes.length ≤ s.inLen.toNat ∧ Spells true (ibufText s) 0 bytes) ∧
    (frameE4.header.opc.toNat = frameE4.props.length ∧ (∀ p ∈ frameE4.props, p.WellFormed) ∧
      2 * bytes'.length ≤ s'.inLen.toNat ∧ Spells true (ibufText s') 0 bytes') :=
  ⟨⟨by decide, spells_of_read (n := 12) (by decide)⟩,
    ⟨by decide, by decide, by decide, spells_of_read (n := 19) (by decide)⟩⟩

/-- F-D7 and F-D9, and a text nothing has written. -/
theorem witness_FdecReportsHeaderErrors :
    (given (txt "1081000105FF01028801620")).inLen.toNat < 24 ∧
    24 ≤ (given (txt "1081000105FF0102880162G1")).inLen.toNat ∧
    FirstBadWithin true (ibufText (given (txt "1081000105FF0102880162G1"))) 0 24 ∧
    FirstUnwrittenAt true (ibufText { State.reset with inLen := 24 }) 0 0 :=
  ⟨by decide, by decide, firstBad_of_read (n := 12) (by decide), firstUnwritten_of_read (by decide) (by decide)⟩

/-- F-D12 (property 1 missing), and property 0 with a bad tag (F-D10's digit there), too short (F-D11) and with a bad value
(F-D13); and property 0 with its length unwritten, and with its value unwritten. -/
theorem witness_FdecReportsPropertyErrors :
    let h : Header := ⟨0x10, 0x81, 0x0001, 0x05FF01, 0x028801, 0x62, 2⟩
    let p : Property := ⟨0xE7, 0, []⟩
    let a := given (txt "1081000105FF010288016202E700")
    let b := given (txt "1081000105FF010288016202G700")
    let c := given (txt "1081000105FF010288016202E7010")
    let d := given (txt "1081000105FF010288016202E7010Z")
    ([p].length < h.opc.toNat ∧ (∀ q ∈ [p], q.WellFormed) ∧
      Spells true (ibufText a) 0 (headerBytes h ++ recordsBytes [p]) ∧ 28 ≤ a.inLen.toNat ∧ a.inLen.toNat < 28 + 4) ∧
    (([] : List Property).length < h.opc.toNat ∧ Spells true (ibufText b) 0 (headerBytes h ++ recordsBytes []) ∧
      24 + 4 ≤ b.inLen.toNat ∧ FirstBadWithin true (ibufText b) 24 4) ∧
    (Spells true (ibufText c) 0 (headerBytes h ++ recordsBytes []) ∧ Spells true (ibufText c) 24 [0xE7, 1] ∧
      c.inLen.toNat < 24 + 4 + 2 * (1 : Byte).toNat) ∧
    (Spells true (ibufText d) 24 [0xE7, 1] ∧ 24 + 4 + 2 * (1 : Byte).toNat ≤ d.inLen.toNat ∧
      FirstBadWithin true (ibufText d) (24 + 4) (2 * (1 : Byte).toNat)) ∧
    FirstUnwrittenAt true (ibufText { given (txt "1081000105FF010288016202E7") with inLen := 28 }) 24 2 ∧
    FirstUnwrittenAt true (ibufText { given (txt "1081000105FF010288016202E701") with inLen := 30 }) (24 + 4) 0 :=
  ⟨⟨by decide, by decide, spells_of_read (n := 14) (by decide), by decide, by decide⟩,
    ⟨by decide, spells_of_read (n := 12) (by decide), by decide, firstBad_of_read (n := 2) (by decide)⟩,
    ⟨spells_of_read (n := 12) (by decide), spells_of_read (n := 2) (by decide), by decide⟩,
    ⟨spells_of_read (n := 2) (by decide), by decide, firstBad_of_read (n := 1) (by decide)⟩,
    firstUnwritten_of_read (by decide) (by decide), firstUnwritten_of_read (by decide) (by decide)⟩

/-- FencEncodes, FenchEncodes and FrameRoundTrip. -/
theorem witness_FrameRoundTrip :
    let s := withFrame frameE4
    let t := succeed (writeOut s (txt "1081000205FF010288016102800130E1021234"))
    (frameE4.header.opc.toNat = frameE4.props.length ∧ s.fr = {
      ehd1 := some 0x10, ehd2 := some 0x81, tid := some 0x0002, seoj := some 0x05FF01, deoj := some 0x028801,
      esv := some 0x61, opc := some 2, nprop := some 2 }) ∧
    s.params.WellFormed ∧ CasesAgree s.params ∧ HoldsFrame s frameE4 ∧ exec .fench s = .next t ∧ CopiedOut t (copied t) :=
  ⟨⟨rfl, rfl⟩, by decide, .inl rfl, holdsFrame_of_loaded (s := .reset) (by decide) rfl rfl, rfl, copied_spec (by decide)⟩

/-- F-E5, and F-E6: entry 0 agrees, entry 1 does not; and no property before the failing one. -/
theorem witness_FencAndFenchCheckInvariants :
    let pt : Table PropReg := [(0, ⟨some 0x80, some 1, some 1, [(0, 0x30)]⟩), (1, ⟨some 0xE1, some 2, some 1, []⟩)]
    ((2 : Byte) ≠ 3) ∧ (withFrame frameE4).fr.opc = some 2 ∧ (withFrame frameE4).fr.nprop = some 2 ∧
    (∀ j, j < 1 → ∃ n, (ptEntry pt j).pdc = some n ∧ (ptEntry pt j).vlen = some n) ∧
    (∃ n m, (ptEntry pt 1).pdc = some n ∧ (ptEntry pt 1).vlen = some m ∧ n ≠ m) := by
  refine ⟨by decide, rfl, rfl, fun j hj => ?_, 2, 1, rfl, rfl, by decide⟩
  obtain rfl : j = 0 := by omega
  exact ⟨1, rfl, rfl⟩

/-- Each clause: OPC unwritten, the PDC of entry 0 unwritten, and with no property a header field unwritten; a value byte
unwritten. -/
theorem witness_FencAndFenchFaultOnUnwritten :
    State.reset.fr.opc = none ∧
    ((withFrame frameE4).fr.opc = some 2 ∧ (withFrame frameE4).fr.nprop = some 2 ∧ 0 < (2 : Byte).toNat ∧
      (ptEntry [] 0).pdc = none) ∧
    (({ FrameReg.unwritten with opc := some 0, nprop := some 0 } : FrameReg).ehd1 = none) ∧
    (let r : PropReg := ⟨some 1, some 1, some 1, []⟩;
      r.pdc = some 1 ∧ r.vlen = some 1 ∧ 0 < (1 : Byte).toNat ∧ Table.get r.val 0 = none) :=
  ⟨rfl, ⟨rfl, rfl, by decide, rfl⟩, rfl, rfl, rfl, by decide, rfl⟩

/-- F-D3's text decoded. -/
theorem witness_DecodeThenEncodeNormalises :
    let s := given (txt "1081ABCD0123454567896200")
    s.params.WellFormed ∧ CasesAgree s.params ∧ (nextOf (exec .fdec s)).map State.opState = some .doneOk ∧
    ∃ t u, exec .fdec s = .next t ∧ exec .fench t = .next u ∧ CopiedOut u (copied u) := by
  refine ⟨by decide, .inl rfl, by decide, ?_⟩
  cases h : nextOf (exec .fdec (given (txt "1081ABCD0123454567896200"))) with
  | none => exact absurd h (by decide)
  | some t =>
    cases h' : nextOf (exec .fench t) with
    | none =>
      have : ((nextOf (exec .fdec (given (txt "1081ABCD0123454567896200")))).bind fun t => nextOf (exec .fench t)) =
          none := by rw [h]; exact h'
      exact absurd this (by decide)
    | some u =>
      refine ⟨t, u, ?_, ?_, copied_spec ?_⟩
      · revert h; cases exec .fdec (given (txt "1081ABCD0123454567896200")) <;> simp [nextOf]
      · revert h'; cases exec .fench t <;> simp [nextOf]
      · have : ((nextOf (exec .fdec (given (txt "1081ABCD0123454567896200")))).bind fun t => nextOf (exec .fench t)).map
            (fun u => decide (u.outLen.toNat ≤ u.params.ibufSize)) = some true := by decide
        rw [h, Option.bind_some, h'] at this
        simpa using this

/-- H-1 and H-3, H-9, and H-5; and a text nothing has written. -/
theorem witness_H2bConverts :
    ((given []).inLen.toNat = 2 * ([] : List Byte).length ∧ Spells true (ibufText (given [])) 0 []) ∧
    ((given (txt "0A")).inLen.toNat = 2 * [0x0A#8].length ∧ Spells true (ibufText (given (txt "0A"))) 0 [0x0A]) ∧
    (given (txt "G")).inLen.toNat % 2 = 1 ∧
    ((given (txt "0G")).inLen.toNat % 2 = 0 ∧ FirstBadWithin true (ibufText (given (txt "0G"))) 0 2) ∧
    FirstUnwrittenAt true (ibufText { State.reset with inLen := 2 }) 0 0 :=
  ⟨⟨rfl, spells_nil _⟩, ⟨rfl, spells_of_read (n := 1) (by decide)⟩, by decide,
    ⟨by decide, firstBad_of_read (n := 1) (by decide)⟩, firstUnwritten_of_read (by decide) (by decide)⟩

/-- B-1, B-2, and an unwritten input byte. -/
theorem witness_B2hConverts :
    (given []).params.WellFormed ∧ (given [0x00, 0xFF, 0x5A]).inLen.toNat ≤ (given []).params.ibufSize ∧
    ([0x00#8, 0xFF#8, 0x5A#8].length = (given [0x00, 0xFF, 0x5A]).inLen.toNat ∧
      ∀ k b, [0x00#8, 0xFF#8, 0x5A#8][k]? = some b → Table.get (given [0x00, 0xFF, 0x5A]).ibuf k = some b) ∧
    (0 < ({ State.reset with inLen := 1 } : State).inLen.toNat ∧ Table.get State.reset.ibuf 0 = none) := by
  refine ⟨by decide, by decide, ⟨by decide, fun k b h => ?_⟩, by decide, rfl⟩
  rw [show (given [0x00, 0xFF, 0x5A]).ibuf = Table.numbered 0 [0x00#8, 0xFF#8, 0x5A#8] from rfl, Table.get_numbered]
  simpa using h

/-- B-4's bytes; the text of H-2; the Frame of F-E4. -/
theorem witness_PayloadLaws :
    let t := succeed { writeOut (given [0x5A]) (txt "5A") with consumed := 1 }
    let u := succeed { writeOut (given (txt "0A")) [0x0A] with consumed := 2 }
    let w := succeed (writeOut (withFrame frameE4) (frameBytes frameE4))
    let x := succeed (writeOut (withFrame frameE4) (txt "1081000205FF010288016102800130E1021234"))
    CasesAgree Params.default ∧
    (exec .b2h (given [0x5A]) = .next t ∧ CopiedOut t (copied t)) ∧
    (exec .h2b (given (txt "0A")) = .next u ∧ u.opState = .doneOk ∧ CopiedOut u (copied u)) ∧
    (exec .fenc (withFrame frameE4) = .next w ∧ w.opState = .doneOk ∧ CopiedOut w (copied w)) ∧
    (exec .fench (withFrame frameE4) = .next x ∧ CopiedOut x (copied x)) :=
  ⟨.inl rfl, ⟨rfl, copied_spec (by decide)⟩, ⟨rfl, rfl, copied_spec (by decide)⟩, ⟨rfl, rfl, copied_spec (by decide)⟩,
    ⟨rfl, copied_spec (by decide)⟩⟩

/-- The statements about every completion (OutcomeTable, IndexNeedsInprop, CompletionsLeaveInputs, LengthRegisterWriters,
ErrorCompletionIsPrecise, and the frames): a success and a failure. -/
theorem witness_completions :
    exec .clr .reset = .next { State.reset with opState := .doneOk } ∧
    exec .h2b .reset = .next { State.reset with opState := .doneOk } ∧
    exec .b2h .reset = .next { State.reset with opState := .doneOk } ∧
    exec .pdec .reset = .next { State.reset with
      opState := .doneErr, err := ⟨.malformedProperty, .short, false, 0⟩ } ∧
    exec .fdec .reset = .next { State.reset with
      opState := .doneErr, err := ⟨.malformedFrame, .short, false, 0⟩ } := ⟨rfl, rfl, rfl, rfl, rfl⟩

/-- PdecFrame, FdecFrame and LengthRegisterWriters on success. -/
theorem witness_decode_success :
    (nextOf (exec .pdec (given (txt "E700")))).map (fun t => (t.opState, t.pr.vlen)) = some (.doneOk, some 0) ∧
    (nextOf (exec .fdec (given (txt "1081ABCD0123454567896200")))).map (fun t => (t.opState, t.fr.nprop)) =
      some (.doneOk, some 0) := by decide

/-- PchkFrame, EncoderFrame, and the encode clause of OutputIsExactlyOutLenBytes (with `witness_invariant`, and
`witness_completions` for ConverterFrame). -/
theorem witness_EncoderFrame :
    exec .pchk (withPr 0x80 0 0 []) = .next { withPr 0x80 0 0 [] with opState := .doneOk } ∧
    exec .penc (withPr 0x80 0 0 []) = .next (succeed (writeOut (withPr 0x80 0 0 []) [0x80, 0])) ∧
    exec .fench (withPr 0x80 0 0 []) = .fault (.unwritten (.fr .opc)) ∧
    exec .fenc (withFrame frameE4) = .next (succeed (writeOut (withFrame frameE4) (frameBytes frameE4))) :=
  ⟨rfl, rfl, rfl, rfl⟩

/-- ErrorCompletionIsPrecise and OutcomeTable for an illegal op code. -/
theorem witness_ErrorCompletionIsPrecise :
    decode (issue .reset 0x00).pendingOp = .error (.illegalOp 0) ∧
    (nextOf (completePending (issue .reset 0x00))).map State.opState = some .doneErr := by decide

/-- BytesBeyondInLenAreNotRead: other bytes at IN_LEN and above. -/
theorem witness_BytesBeyondInLenAreNotRead : ∀ k, k < (given (txt "0A")).inLen.toNat →
    Table.get (Table.numbered 0 (txt "0AG")) k = Table.get (given (txt "0A")).ibuf k := by decide

theorem witness_RefusedWriteDoesNotAlterOutcome : (issue .reset 0x11).opState = .busy ∧ Instr.fdec ≠ .clr := by decide

theorem witness_FrameLengths : frameE4.WellFormed := by decide

/-- HexTextReadsBack: one byte, in both letter cases. -/
theorem witness_HexTextReadsBack : (true = true ∨ HexCase.lower = .upper) ∧ (false = true ∨ HexCase.upper = .upper) ∧
    [0xA0#8][0]? = some 0xA0#8 ∧ hexval false 0x41 = some 10 ∧ hexval false 0x61 = none := by decide

/-- ReadOnlyWritesAreRefused: OBUF, at the first index beyond its range too. -/
theorem witness_ReadOnlyWritesAreRefused :
    (∃ i, Loc.obuf 0 = .obuf i) ∧ ∃ i, Loc.obuf 262188 = .obuf i := ⟨⟨0, rfl⟩, 262188, rfl⟩

theorem witness_CmdWriteIssues : State.reset.opState ≠ .busy ∧ (issue .reset 0x01).opState = .busy := by decide

theorem witness_BusyWritesAreRefused :
    let s := { issue .reset 0x11 with host := ⟨[.wr .inLen 0], 0, none, none⟩, turns := [.host] }
    s.opState = .busy ∧ s.turns = .host :: [] ∧ nextOp s = some (.wr .inLen 0) := ⟨rfl, rfl, rfl⟩

/-- TypedWrites at the ends of the ranges: the last legal value or index, and the first one that is not. -/
theorem witness_TypedWrites :
    WriteAllowed .reset .inLen 131094 ∧ ¬ WriteAllowed .reset .inLen 131095 ∧
    WriteAllowed .reset (.ibuf 131093) 255 ∧ ¬ WriteAllowed .reset (.ibuf 131094) 255 ∧
    ¬ WriteAllowed .reset (.ibuf 0) 256 ∧
    WriteAllowed .reset (.pr (.val 254)) 0 ∧ ¬ WriteAllowed .reset (.pr (.val 255)) 0 ∧
    WriteAllowed .reset (.pt 254 (.val 254)) 0 ∧ ¬ WriteAllowed .reset (.pt 255 .epc) 0 ∧
    WriteAllowed .reset (.fr .deoj) 0xFFFFFF ∧ ¬ WriteAllowed .reset (.fr .deoj) 0x1000000 ∧
    ¬ WriteAllowed .reset (.other 0) 0 := by
  simp [WriteAllowed, Loc.width, PropField.width, FrameField.width, State.reset, State.resetWith, Params.default]

/-- HostReads, ReadsHaveNoSideEffect and UnwrittenReadsFault: a value, a read while BUSY, a refused read, an unwritten
location. -/
theorem witness_HostReads :
    readLoc .reset .inLen = some (some 0) ∧ State.reset.opState ≠ .busy ∧
    ((issue .reset 0x11).opState = .busy ∧ Loc.err ≠ .status) ∧
    (readLoc .reset (.ibuf 131094) = none ∧
      hostRead .reset (.ibuf 131094) = .next (replyFree (refuseAccess .reset) (.ibuf 131094))) ∧
    readLoc .reset (.ibuf 131093) = some none := ⟨rfl, by decide, by decide, ⟨rfl, rfl⟩, rfl⟩

/-- StateTransitions, PendingOpIsFixedWhileBusy, HerrChanges, ParametersAreFixed and StepKeepsInvariant: a step of the engine, of the
host and of the reset input. -/
theorem witness_steps :
    let e := issue .reset 0x30
    let h := { State.reset with host := ⟨[.wr .cmd 0x30], 0, none, none⟩ }
    let r := { issue .reset 0x30 with turns := [.reset] }
    (turnTaken e = .engine ∧ turnTaken e ≠ .reset ∧ e.opState = .busy ∧ (nextOf (step e)).map State.opState = some .doneOk) ∧
    (turnTaken h = .host ∧ nextOp h = some (.wr .cmd 0x30) ∧ (nextOf (step h)).map State.opState = some .busy) ∧
    (turnTaken r = .reset ∧ (nextOf (step r)).map State.opState = some .idle) := by decide

/-- HerrChanges: accesses that are refused, and one that is not. -/
theorem witness_RefusesNext :
    RefusesNext { State.reset with host := ⟨[.wr .status 0], 0, none, none⟩ } ∧
    RefusesNext { State.reset with host := ⟨[.rd (.other 0)], 0, none, none⟩ } ∧
    ¬ RefusesNext { State.reset with host := ⟨[.rd .status], 0, none, none⟩ } := by
  simp [RefusesNext, nextOp, WriteAllowed, readLoc, State.reset, State.resetWith]

/-- The invariant is met: at reset. -/
theorem witness_invariant : Inv State.reset where
  params := by decide
  inLen := by decide
  outLen := by decide
  consumed := by decide
  ibuf := ⟨by decide, by decide⟩
  obuf := ⟨by decide, by decide⟩
  pr := ⟨by decide, by decide⟩
  pt := ⟨by decide, fun _ h => absurd h (by simp [State.reset, State.resetWith])⟩
  err := .inl ⟨.clr, .inl rfl⟩
  errZero := fun _ => rfl
  errSet := by decide

/-- HostBranches: a script whose branch has its label, for each kind of branch. -/
theorem witness_HostBranches : ∀ op ∈ [HostOp.br 7, .brErr 7, .brHerr 7, .backIfBusy],
    let s := { State.reset with host := ⟨[.label 7, op], 1, some 0x103, none⟩, turns := [.host] }
    s.turns = .host :: [] ∧ s.host.lastStatus = some 0x103 ∧ labelPos 7 0 s.host.script = some 0 ∧
      nextOp s = some op := by decide

end Sys2Proof.Tests
end

section
/-! The parameters and the host's script are fixed (00_scope.md R8, 10_state.md R20): what each agent's step leaves unchanged, and the
frame of the machine's step that follows from it. -/

namespace Sys2Proof.Machine

/-! ### The engine -/

/-- What a step of the engine that answers a next state can be: nothing while not BUSY (R27), the completion of the operation
PENDING_OP names, or IllegalOp where it names none (R176). -/
theorem engineStep_next_cases {s t : State} (h : engineStep s = .next t) :
    (s.opState ≠ .busy ∧ t = s) ∨
    (s.opState = .busy ∧ ∃ i, decode s.pendingOp = .ok i ∧ exec i s = .next t) ∨
    (s.opState = .busy ∧ (∃ e, decode s.pendingOp = .error e) ∧
      t = raiseErr s ⟨.illegalOp, .none, false, 0⟩) := by
  unfold engineStep at h
  split at h
  case isTrue hbusy =>
    unfold completePending at h
    cases hd : decode s.pendingOp with
    | ok i =>
      rw [hd] at h
      exact .inr (.inl ⟨hbusy, i, rfl, h⟩)
    | error e =>
      rw [hd] at h
      cases h
      exact .inr (.inr ⟨hbusy, ⟨e, rfl⟩, rfl⟩)
  case isFalse hidle =>
    cases h
    exact .inl ⟨hidle, rfl⟩

/-- No operation has the parameters or the host among the destinations of its `commit`. -/
theorem commits_params_host {i : Instr} {s u : State} (h : Commits i s u) :
    u.params = s.params ∧ u.host = s.host := by
  cases i with
  | pchk =>
    obtain ⟨-, rfl⟩ := h
    exact ⟨rfl, rfl⟩
  | pdec | fdec =>
    obtain ⟨_, -, -, -, rfl⟩ := h
    exact ⟨rfl, rfl⟩
  | penc | pench | fenc | fench =>
    obtain ⟨_, -, rfl⟩ := h
    exact ⟨rfl, rfl⟩
  | h2b | b2h =>
    obtain ⟨_, -, -, rfl⟩ := h
    exact ⟨rfl, rfl⟩
  | clr =>
    obtain rfl := h
    exact ⟨rfl, rfl⟩

theorem exec_params_host {i : Instr} {s t : State} (h : exec i s = .next t) :
    t.params = s.params ∧ t.host = s.host := by
  obtain ⟨u, hu, rfl⟩ | ⟨e, -, -, rfl⟩ := exec_next_cases h
  · simpa using commits_params_host hu
  · simp

theorem engineStep_params_host {s t : State} (h : engineStep s = .next t) :
    t.params = s.params ∧ t.host = s.host := by
  obtain ⟨-, rfl⟩ | ⟨-, i, -, hexec⟩ | ⟨-, -, rfl⟩ := engineStep_next_cases h
  · exact ⟨rfl, rfl⟩
  · exact exec_params_host hexec
  · simp

/-! ### The host -/

/-- A host write, accepted or refused, reaches the codec's own state only (R38, R62). -/
theorem hostWrite_params_host (s : State) (l : Loc) (v : Nat) :
    (hostWrite s l v).params = s.params ∧ (hostWrite s l v).host = s.host := by
  obtain ⟨-, hrefused⟩ | ⟨-, -, hwrite⟩ := hostWrite_cases s l v
  · simp [hrefused]
  · obtain ⟨op, -, -, ht⟩ | ⟨w, -, -, -, ht⟩ | ⟨i, b, -, -, ht⟩ | ⟨f, r, -, -, ht⟩ | ⟨f, r, -, -, ht⟩ |
      ⟨i, f, r, -, -, -, ht⟩ := writeLoc_cases hwrite <;> simp [ht]

/-- What a host read leaves of the host is all but what it remembers of its reads (R43, R86). -/
theorem hostRead_params_script {s t : State} {l : Loc} (h : hostRead s l = .next t) :
    t.params = s.params ∧ t.host.script = s.host.script := by
  obtain ⟨w, hr, -⟩ | ⟨-, -, hr⟩ | ⟨-, -, hr⟩ | ⟨-, -, hr⟩ := hostRead_cases s l <;>
    rw [h] at hr <;> cases hr <;> simp

theorem hostStep_params_script {s t : State} (h : hostStep s = .next t) :
    t.params = s.params ∧ t.host.script = s.host.script := by
  obtain ⟨-, rfl⟩ | ⟨l, v, -, rfl⟩ | ⟨l, -, hread⟩ | ⟨-, -, k, rfl⟩ := hostStep_next_cases h
  · exact ⟨rfl, rfl⟩
  · obtain ⟨hparams, hhost⟩ := hostWrite_params_host s l v
    simp [hparams, hhost]
  · simpa using hostRead_params_script hread
  · simp

/-! ### The machine -/

theorem takeTurn_params_script {turn : Turn} {s t : State} (h : takeTurn turn s = .next t) :
    t.params = s.params ∧ t.host.script = s.host.script ∧ (turn ≠ .host → t.host = s.host) := by
  cases turn with
  | engine =>
    obtain ⟨hparams, hhost⟩ := engineStep_params_host h
    exact ⟨hparams, by rw [hhost], fun _ => hhost⟩
  | host =>
    obtain ⟨hparams, hscript⟩ := hostStep_params_script h
    exact ⟨hparams, hscript, fun hne => absurd rfl hne⟩
  | reset =>
    cases h
    simp

/-- Settles O55: each agent keeps the parameters and the script, and the engine and the reset input keep the host agent. -/
theorem parametersAreFixed : Obligations.ParametersAreFixed := by
  intro s t h
  rw [step_eq_takeTurn] at h
  exact takeTurn_params_script (s := { s with turns := s.turns.tail }) h

end Sys2Proof.Machine
end

section
/-! The invariant (10_state.md R29 to R36, 60_exceptions.md R189 to R191): what each update of sparse data and of the state keeps of
it, what an operation commits within it, and from these that reset meets it and every step keeps it. -/

namespace Sys2Proof.Machine

/-! ### Sparse data in canonical form -/

theorem Memory.within_nil (size : Nat) : Memory.Within [] size :=
  ⟨List.Pairwise.nil, fun _ hc => absurd hc List.not_mem_nil⟩

theorem Memory.Within.put {m : Memory} {size k : Nat} (h : Memory.Within m size) (hk : k < size) (b : Byte) :
    Memory.Within (Table.put m k b) size := by
  refine ⟨Table.put_wf h.1 k b, fun c hc => ?_⟩
  obtain rfl | hc := Table.mem_put hc
  · exact hk
  · exact h.2 c hc

theorem Memory.Within.overwrite {m : Memory} {size : Nat} (h : Memory.Within m size) {bs : List Byte}
    (hbs : bs.length ≤ size) : Memory.Within (Table.overwrite m bs) size := by
  refine ⟨Table.overwrite_wf h.1 bs, fun c hc => ?_⟩
  obtain ⟨hlt, -⟩ | hc := Table.mem_overwrite hc
  · omega
  · exact h.2 c hc

theorem Table.put_ne_nil {α : Type} (m : Table α) (k : Nat) (v : α) : Table.put m k v ≠ [] := by
  intro h
  have hget := Table.get_put m k v k
  simp [h] at hget

/-! ### Property registers and the property table -/

/-- A register the property table may list: not wholly unwritten, and its VAL array in canonical form (R32, R36). -/
def PropReg.Listable (r : PropReg) : Prop := r ≠ PropReg.unwritten ∧ Memory.Within r.val valCap

/-- A field written in a register with a canonical VAL array gives a listable register (R39). -/
theorem propWrite_listable {r q : PropReg} {f : PropField} {v : Nat} (hr : Memory.Within r.val valCap)
    (h : r.write f v = some q) : q.Listable := by
  obtain ⟨b, rfl⟩ | ⟨b, rfl⟩ | ⟨b, rfl⟩ | ⟨j, b, hj, rfl⟩ := propWrite_cases h
  · exact ⟨fun he => Option.some_ne_none b (congrArg PropReg.epc he), hr⟩
  · exact ⟨fun he => Option.some_ne_none b (congrArg PropReg.pdc he), hr⟩
  · exact ⟨fun he => Option.some_ne_none b (congrArg PropReg.vlen he), hr⟩
  · exact ⟨fun he => Table.put_ne_nil r.val j b (congrArg PropReg.val he), hr.put hj b⟩

theorem wellFormed_value_length_le {p : Property} (h : p.WellFormed) : p.value.length ≤ valCap := by
  have hlen : p.length.toNat = p.value.length := h
  have hlt := p.length.isLt
  simp only [valCap]
  omega

/-- A well-formed Property loaded in a register with a canonical VAL array gives a listable register (R105, R136). -/
theorem load_listable {r : PropReg} {p : Property} (hr : Memory.Within r.val valCap) (hp : p.WellFormed) :
    (r.load p).Listable :=
  ⟨fun he => Option.some_ne_none p.tag (congrArg PropReg.epc he), hr.overwrite (wellFormed_value_length_le hp)⟩

theorem PtWithin.ptEntry_val {t : Table PropReg} (h : PtWithin t) (i : Nat) :
    Memory.Within (ptEntry t i).val valCap := by
  unfold ptEntry
  cases hget : Table.get t i with
  | none => exact Memory.within_nil valCap
  | some r =>
    obtain ⟨-, -, hval⟩ := h.2 _ (Table.mem_of_get hget)
    exact hval

theorem PtWithin.put {t : Table PropReg} {i : Nat} {r : PropReg} (h : PtWithin t) (hi : i < ptCap)
    (hr : r.Listable) : PtWithin (Table.put t i r) := by
  refine ⟨Table.put_wf h.1 i r, fun c hc => ?_⟩
  obtain rfl | hc := Table.mem_put hc
  · exact ⟨hi, hr⟩
  · exact h.2 c hc

theorem PtWithin.overwrite {t : Table PropReg} {rs : List PropReg} (h : PtWithin t) (hlen : rs.length ≤ ptCap)
    (hrs : ∀ r ∈ rs, r.Listable) : PtWithin (Table.overwrite t rs) := by
  refine ⟨Table.overwrite_wf h.1 rs, fun c hc => ?_⟩
  obtain ⟨hlt, hmem⟩ | hc := Table.mem_overwrite hc
  · exact ⟨by omega, hrs c.2 hmem⟩
  · exact h.2 c hc

/-- The entries a frame decode loads are listable (R136). -/
theorem loadedEntries_listable {t : Table PropReg} (ht : PtWithin t) {ps : List Property}
    (hps : ∀ p ∈ ps, p.WellFormed) : ∀ r ∈ loadedEntries t 0 ps, r.Listable := by
  intro r hr
  obtain ⟨k, hk⟩ := List.getElem?_of_mem hr
  rw [loadedEntries_getElem?, Option.map_eq_some_iff] at hk
  obtain ⟨p, hp, rfl⟩ := hk
  exact load_listable (ht.ptEntry_val _) (hps p (List.mem_of_getElem? hp))

/-! ### Lengths -/

theorem recordsBytes_length_le {ps : List Property} (h : ∀ p ∈ ps, p.WellFormed) :
    (recordsBytes ps).length ≤ 257 * ps.length := by
  induction ps with
  | nil => simp [recordsBytes]
  | cons p ps ih =>
    obtain ⟨hp, hps⟩ := List.forall_mem_cons.1 h
    have hval : p.value.length ≤ 255 := wellFormed_value_length_le hp
    have hrest := ih hps
    simp only [recordsBytes, List.length_append, recordBytes_length, List.length_cons]
    omega

theorem wellFormed_props_length_le {f : Frame} (h : f.WellFormed) : f.props.length ≤ ptCap := by
  have hlt := f.header.opc.isLt
  rw [h.1] at hlt
  simp only [ptCap]
  omega

/-- A frame has at most 65547 bytes (R81). -/
theorem frameBytes_length_le {f : Frame} (h : f.WellFormed) : (frameBytes f).length ≤ 65547 := by
  have hcount : f.props.length ≤ 255 := wellFormed_props_length_le h
  have hrecords := recordsBytes_length_le h.2
  rw [frameBytes_length]
  omega

theorem word_toNat_ofNat_le (n : Nat) : (BitVec.ofNat 32 n).toNat ≤ n := by
  rw [BitVec.toNat_ofNat]
  exact Nat.mod_le n _

/-! ### The updates of the state -/

theorem legal_zero : ErrReg.Legal .zero := .inl ⟨.clr, .inl rfl⟩

/-- Settles O56: with nothing written and ERR = 0, only the parameters' own legality is left. -/
theorem resetMeetsInvariant : Obligations.ResetMeetsInvariant := by
  intro p hp
  exact {
    params := hp
    inLen := Nat.zero_le _
    outLen := Nat.zero_le _
    consumed := Nat.zero_le _
    ibuf := Memory.within_nil _
    obuf := Memory.within_nil _
    pr := Memory.within_nil _
    pt := ⟨List.Pairwise.nil, fun _ hc => absurd hc List.not_mem_nil⟩
    err := legal_zero
    errZero := fun _ => rfl
    errSet := fun hstate => OpState.noConfusion hstate }

theorem Inv.succeed {s : State} (h : Inv s) : Inv (succeed s) :=
  { h with err := legal_zero, errZero := fun _ => rfl, errSet := by simp }

theorem Inv.raiseErr {s : State} (h : Inv s) {e : ErrReg} (hlegal : e.Legal) (hcode : e.code ≠ .none) :
    Inv (raiseErr s e) :=
  { h with
    err := hlegal
    errZero := by simp
    errSet := fun _ => hcode }

theorem Inv.writeOut {s : State} (h : Inv s) {bs : List Byte} (hbs : bs.length ≤ s.params.obufSize) :
    Inv (writeOut s bs) :=
  { h with outLen := (word_toNat_ofNat_le _).trans hbs, obuf := h.obuf.overwrite hbs }

theorem Inv.setConsumed {s : State} (h : Inv s) {w : Word} (hw : w.toNat ≤ s.params.ibufSize) :
    Inv { s with consumed := w } :=
  { h with consumed := hw }

theorem Inv.refuseAccess {s : State} (h : Inv s) : Inv (refuseAccess s) := { h with }

theorem Inv.issue {s : State} (h : Inv s) (op : Byte) : Inv (issue s op) :=
  { h with
    errZero := by simp
    errSet := by simp }

theorem Inv.resetInput {s : State} (h : Inv s) : Inv (resetInput s) :=
  { resetMeetsInvariant s.params h.params with }

theorem Inv.setTurns {s : State} (h : Inv s) (ts : List Turn) : Inv { s with turns := ts } := { h with }

theorem Inv.reply {s : State} (h : Inv s) (l : Loc) (w : Word) : Inv (reply s l w) := { h with }

theorem Inv.replyFree {s : State} (h : Inv s) (l : Loc) : Inv (replyFree s l) := { h with }

theorem Inv.goTo {s : State} (h : Inv s) (k : Nat) : Inv (goTo s k) := { h with }

/-! ### The engine -/

/-- What any operation commits keeps the invariant: each output fits OBUF, and CONSUMED is at most IN_LEN (R54, R142). -/
theorem Inv.commits {i : Instr} {s u : State} (h : Inv s) (hu : Commits i s u) : Inv u := by
  have hsize : 131094 ≤ s.params.ibufSize := h.params.1
  have hobuf : s.params.obufSize = 2 * s.params.ibufSize := rfl
  have hin := h.inLen
  cases i with
  | pchk =>
    obtain ⟨-, rfl⟩ := hu
    exact h
  | pdec =>
    obtain ⟨p, hp, hle, -, rfl⟩ := hu
    have hpr : Inv { s with pr := s.pr.load p } := { h with pr := (load_listable h.pr hp).2 }
    exact hpr.setConsumed (((word_toNat_ofNat_le _).trans hle).trans hin)
  | penc =>
    obtain ⟨p, hp, rfl⟩ := hu
    have hval : p.value.length ≤ 255 := wellFormed_value_length_le hp.1
    exact h.writeOut (by rw [recordBytes_length]; omega)
  | pench =>
    obtain ⟨p, hp, rfl⟩ := hu
    have hval : p.value.length ≤ 255 := wellFormed_value_length_le hp.1
    exact h.writeOut (by rw [hex_length, recordBytes_length]; omega)
  | fdec =>
    obtain ⟨f, hf, hle, -, rfl⟩ := hu
    have hpt : PtWithin (Table.overwrite s.pt (loadedEntries s.pt 0 f.props)) :=
      h.pt.overwrite ((loadedEntries_length ..).trans_le (wellFormed_props_length_le hf))
        (loadedEntries_listable h.pt hf.2)
    exact { h with pt := hpt, consumed := ((word_toNat_ofNat_le _).trans hle).trans hin }
  | fenc =>
    obtain ⟨f, hf, rfl⟩ := hu
    have hlen := frameBytes_length_le hf.1
    exact h.writeOut (by omega)
  | fench =>
    obtain ⟨f, hf, rfl⟩ := hu
    have hlen := frameBytes_length_le hf.1
    exact h.writeOut (by rw [hex_length]; omega)
  | h2b =>
    obtain ⟨bs, hlen, -, rfl⟩ := hu
    exact (h.writeOut (by omega)).setConsumed hin
  | b2h =>
    obtain ⟨bs, hlen, -, rfl⟩ := hu
    exact (h.writeOut (by rw [hex_length]; omega)).setConsumed hin
  | clr =>
    obtain rfl := hu
    exact { h with }

theorem exec_keeps_inv {i : Instr} {s t : State} (h : Inv s) (ht : exec i s = .next t) : Inv t := by
  obtain ⟨u, hu, rfl⟩ | ⟨e, hmay, hcode, rfl⟩ := exec_next_cases ht
  · exact (h.commits hu).succeed
  · exact h.raiseErr (.inl ⟨i, hmay⟩) hcode

theorem engineStep_keeps_inv {s t : State} (h : Inv s) (ht : engineStep s = .next t) : Inv t := by
  obtain ⟨-, rfl⟩ | ⟨-, i, -, hexec⟩ | ⟨-, -, rfl⟩ := engineStep_next_cases ht
  · exact h
  · exact exec_keeps_inv h hexec
  · exact h.raiseErr (.inr rfl) (by simp)

/-! ### The host -/

theorem writeLoc_keeps_inv {s t : State} {l : Loc} {v : Nat} (h : Inv s) (ht : writeLoc s l v = some t) : Inv t := by
  obtain ⟨op, -, -, rfl⟩ | ⟨w, -, hv, rfl, rfl⟩ | ⟨i, b, -, hi, rfl⟩ | ⟨f, r, -, hr, rfl⟩ | ⟨f, r, -, -, rfl⟩ |
    ⟨i, f, r, -, hi, hr, rfl⟩ := writeLoc_cases ht
  · exact h.issue op
  · exact { h with inLen := (word_toNat_ofNat_le v).trans hv }
  · exact { h with ibuf := h.ibuf.put hi b }
  · exact { h with pr := (propWrite_listable h.pr hr).2 }
  · exact { h with }
  · exact { h with pt := h.pt.put hi (propWrite_listable (h.pt.ptEntry_val i) hr) }

theorem Inv.hostWrite {s : State} (h : Inv s) (l : Loc) (v : Nat) : Inv (hostWrite s l v) := by
  obtain ⟨-, hrefused⟩ | ⟨-, -, hwrite⟩ := hostWrite_cases s l v
  · rw [hrefused]
    exact h.refuseAccess
  · exact writeLoc_keeps_inv h hwrite

theorem hostRead_keeps_inv {s t : State} {l : Loc} (h : Inv s) (ht : hostRead s l = .next t) : Inv t := by
  obtain ⟨w, hr, -⟩ | ⟨-, -, hr⟩ | ⟨-, -, hr⟩ | ⟨-, -, hr⟩ := hostRead_cases s l <;> rw [ht] at hr <;> cases hr
  · exact h.reply l w
  · exact h.replyFree l
  · exact h.refuseAccess.replyFree l

theorem hostStep_keeps_inv {s t : State} (h : Inv s) (ht : hostStep s = .next t) : Inv t := by
  obtain ⟨-, rfl⟩ | ⟨l, v, -, rfl⟩ | ⟨l, -, hread⟩ | ⟨-, -, k, rfl⟩ := hostStep_next_cases ht
  · exact h
  · exact (h.hostWrite l v).goTo _
  · exact hostRead_keeps_inv (h.goTo _) hread
  · exact h.goTo k

/-! ### The machine -/

theorem takeTurn_keeps_inv {turn : Turn} {s t : State} (h : Inv s) (ht : takeTurn turn s = .next t) : Inv t := by
  cases turn with
  | engine => exact engineStep_keeps_inv h ht
  | host => exact hostStep_keeps_inv h ht
  | reset =>
    cases ht
    exact h.resetInput

/-- Settles O57: the turn is no part of the invariant, and each agent keeps it. -/
theorem stepKeepsInvariant : Obligations.StepKeepsInvariant := by
  intro s t h ht
  rw [step_eq_takeTurn] at ht
  exact takeTurn_keeps_inv (h.setTurns s.turns.tail) ht

end Sys2Proof.Machine
end

section
/-! Completions (10_state.md R25 to R31, R46): the inputs no operation writes, the writers of HERR, OUT_LEN and CONSUMED, and the
engine's turn as the completion of the decoded operation. -/

namespace Sys2Proof.Machine

/-! ### What an operation leaves as it is -/

/-- What no completion writes: the parameters, PENDING_OP, the inputs IN_LEN and IBUF, and what is not the codec's (R26, R29, R51). -/
structure InputsKept (s t : State) : Prop where
  params : t.params = s.params
  pendingOp : t.pendingOp = s.pendingOp
  inLen : t.inLen = s.inLen
  ibuf : t.ibuf = s.ibuf
  host : t.host = s.host
  turns : t.turns = s.turns
  draws : t.draws = s.draws

theorem commits_inputsKept {i : Instr} {s u : State} (h : Commits i s u) : InputsKept s u := by
  cases i with
  | pchk =>
    obtain ⟨-, rfl⟩ := h
    exact ⟨rfl, rfl, rfl, rfl, rfl, rfl, rfl⟩
  | pdec | fdec =>
    obtain ⟨_, -, -, -, rfl⟩ := h
    exact ⟨rfl, rfl, rfl, rfl, rfl, rfl, rfl⟩
  | penc | pench | fenc | fench =>
    obtain ⟨_, -, rfl⟩ := h
    exact ⟨rfl, rfl, rfl, rfl, rfl, rfl, rfl⟩
  | h2b | b2h =>
    obtain ⟨_, -, -, rfl⟩ := h
    exact ⟨rfl, rfl, rfl, rfl, rfl, rfl, rfl⟩
  | clr =>
    obtain rfl := h
    exact ⟨rfl, rfl, rfl, rfl, rfl, rfl, rfl⟩

theorem exec_inputsKept {i : Instr} {s t : State} (h : exec i s = .next t) : InputsKept s t := by
  obtain ⟨u, hu, rfl⟩ | ⟨e, -, -, rfl⟩ := exec_next_cases h
  · exact { commits_inputsKept hu with }
  · exact ⟨rfl, rfl, rfl, rfl, rfl, rfl, rfl⟩

/-- CLR is the one operation that writes HERR, and it clears it (R46, R175). -/
theorem commits_herr {i : Instr} {s u : State} (h : Commits i s u) : u.herr = (s.herr && !decide (i = .clr)) := by
  cases i with
  | pchk =>
    obtain ⟨-, rfl⟩ := h
    simp
  | pdec | fdec =>
    obtain ⟨_, -, -, -, rfl⟩ := h
    simp
  | penc | pench | fenc | fench =>
    obtain ⟨_, -, rfl⟩ := h
    simp
  | h2b | b2h =>
    obtain ⟨_, -, -, rfl⟩ := h
    simp
  | clr =>
    obtain rfl := h
    simp

theorem clr_reports_nothing {e : ErrReg} (h : MayReport .clr e) : e.code = .none := by
  obtain rfl | hfalse := h
  · rfl
  · exact hfalse.elim

theorem exec_herr {i : Instr} {s t : State} (h : exec i s = .next t) : t.herr = (s.herr && !decide (i = .clr)) := by
  obtain ⟨u, hu, rfl⟩ | ⟨e, hmay, hcode, rfl⟩ := exec_next_cases h
  · exact (succeed_herr u).trans (commits_herr hu)
  · have hne : i ≠ .clr := fun hi => hcode (clr_reports_nothing (hi ▸ hmay))
    simp [hne]

/-- Settles O32: what no operation writes, and HERR, which only CLR writes. -/
theorem completionsLeaveInputs : Obligations.CompletionsLeaveInputs := by
  intro i s t h
  have hkept := exec_inputsKept h
  exact ⟨hkept.params, hkept.pendingOp, hkept.inLen, fun k => by rw [hkept.ibuf], hkept.host, hkept.turns, hkept.draws,
    fun hne => by simp [exec_herr h, hne]⟩

/-! ### The length registers -/

theorem commits_outLen {i : Instr} {s u : State} (h : Commits i s u)
    (hi : i = .pchk ∨ i = .pdec ∨ i = .fdec ∨ i = .clr) : u.outLen = s.outLen := by
  obtain rfl | rfl | rfl | rfl := hi
  · obtain ⟨-, rfl⟩ := h
    rfl
  · obtain ⟨p, -, -, -, rfl⟩ := h
    rfl
  · obtain ⟨f, -, -, -, rfl⟩ := h
    rfl
  · obtain rfl := h
    rfl

theorem commits_consumed {i : Instr} {s u : State} (h : Commits i s u)
    (hi : i = .pchk ∨ i = .penc ∨ i = .pench ∨ i = .fenc ∨ i = .fench ∨ i = .clr) : u.consumed = s.consumed := by
  obtain rfl | rfl | rfl | rfl | rfl | rfl := hi
  · obtain ⟨-, rfl⟩ := h
    rfl
  iterate 4
    · obtain ⟨_, -, rfl⟩ := h
      rfl
  · obtain rfl := h
    rfl

theorem word_toNat_ofNat_of_le {n : Nat} {w : Word} (h : n ≤ w.toNat) : (BitVec.ofNat 32 n).toNat = n :=
  (BitVec.toNat_ofNat n 32).trans (Nat.mod_eq_of_lt (h.trans_lt w.isLt))

/-- PDEC consumes at least tag and length and no more than IN_LEN (R100, R142). -/
theorem commits_pdec_consumed {s u : State} (h : Commits .pdec s u) :
    4 ≤ u.consumed.toNat ∧ u.consumed.toNat ≤ s.inLen.toNat := by
  obtain ⟨p, -, hle, -, rfl⟩ := h
  simp only [word_toNat_ofNat_of_le hle]
  omega

/-- FDEC consumes at least the header and no more than IN_LEN (R131, R142). -/
theorem commits_fdec_consumed {s u : State} (h : Commits .fdec s u) :
    24 ≤ u.consumed.toNat ∧ u.consumed.toNat ≤ s.inLen.toNat := by
  obtain ⟨f, -, hle, -, rfl⟩ := h
  have hlen := frameBytes_length f
  simp only [word_toNat_ofNat_of_le hle]
  omega

/-- A conversion consumes its whole input (R161, R162). -/
theorem commits_convert_consumed {i : Instr} {s u : State} (h : Commits i s u) (hi : i = .h2b ∨ i = .b2h) :
    u.consumed = s.inLen := by
  obtain rfl | rfl := hi <;>
  · obtain ⟨bs, -, -, rfl⟩ := h
    rfl

/-- Settles O33: an error completion writes neither register; a success writes what its operation commits. -/
theorem lengthRegisterWriters : Obligations.LengthRegisterWriters := by
  intro i s t h
  obtain ⟨u, hu, rfl⟩ | ⟨e, -, -, rfl⟩ := exec_next_cases h
  · simp only [succeed_outLen, succeed_consumed, succeed_opState, reduceCtorEq, false_or, true_implies]
    refine ⟨commits_outLen hu, commits_consumed hu, ?_, ?_, commits_convert_consumed hu⟩
    · rintro rfl
      exact commits_pdec_consumed hu
    · rintro rfl
      exact commits_fdec_consumed hu
  · simp

/-! ### The engine's turn -/

/-- The engine's step while BUSY, where PENDING_OP names an operation (R27). -/
theorem engineStep_of_decode {s : State} {i : Instr} (hbusy : s.opState = .busy) (hdecode : decode s.pendingOp = .ok i) :
    engineStep s = exec i s := by
  simp only [engineStep, if_pos hbusy, completePending, hdecode]

/-- The engine's step while BUSY, where PENDING_OP names no operation (R176). -/
theorem engineStep_of_illegal {s : State} {e : DecodeError} (hbusy : s.opState = .busy)
    (hdecode : decode s.pendingOp = .error e) :
    engineStep s = .next (raiseErr s ⟨.illegalOp, .none, false, 0⟩) := by
  simp only [engineStep, if_pos hbusy, completePending, hdecode]
  rfl

theorem step_of_engineTurn {s : State} (h : turnTaken s = .engine) :
    step s = engineStep { s with turns := s.turns.tail } := by
  rw [step_eq_takeTurn, h]
  rfl

/-- Settles O4: with no turn listed the engine moves because the codec is BUSY, and otherwise because its turn is listed. -/
theorem engineTurnRunsTheDecodedOperation : Obligations.EngineTurnRunsTheDecodedOperation := by
  intro s i hbusy hdecode
  constructor
  · intro hturns
    calc step s = takeTurn (defaultTurn s) s := by simp only [step, hturns]
      _ = engineStep s := by simp only [defaultTurn, if_pos hbusy, takeTurn]
      _ = exec i s := engineStep_of_decode hbusy hdecode
  · intro ts hturns
    calc step s = engineStep { s with turns := ts } := by simp only [step, hturns, takeTurn]
      _ = exec i { s with turns := ts } :=
        engineStep_of_decode (s := { s with turns := ts }) hbusy hdecode

/-- A completion ends its operation: DONE_OK after a commit, DONE_ERR after an error (R25). -/
theorem exec_ends {i : Instr} {s t : State} (h : exec i s = .next t) :
    (t.opState = .doneOk ∧ t.err = .zero) ∨ (t.opState = .doneErr ∧ t.err.code ≠ .none) := by
  obtain ⟨u, -, rfl⟩ | ⟨e, -, hcode, rfl⟩ := exec_next_cases h
  · exact .inl ⟨rfl, rfl⟩
  · exact .inr ⟨rfl, hcode⟩

/-- The engine's step while BUSY ends the operation or stops on an unwritten location (R25, R44). -/
theorem engineStep_ends {s : State} (hbusy : s.opState = .busy) :
    (∃ t, engineStep s = .next t ∧ (t.opState = .doneOk ∨ t.opState = .doneErr) ∧ t.pendingOp = s.pendingOp) ∨
    ∃ l, engineStep s = .fault (.unwritten l) := by
  cases hdecode : decode s.pendingOp with
  | error e => exact .inl ⟨_, engineStep_of_illegal hbusy hdecode, .inr rfl, rfl⟩
  | ok i =>
    rw [engineStep_of_decode hbusy hdecode]
    cases hexec : exec i s with
    | next t => exact .inl ⟨t, rfl, (exec_ends hexec).imp And.left And.left, (exec_inputsKept hexec).pendingOp⟩
    | fault f =>
      obtain ⟨l, rfl⟩ := exec_fault_cases hexec
      exact .inr ⟨l, rfl⟩
    | refused r => exact absurd hexec exec_ne_refused

/-- Settles O6: using up the turn changes nothing the engine reads. -/
theorem engineTurnEndsTheOperation : Obligations.EngineTurnEndsTheOperation := by
  intro s hbusy hturn
  rw [step_of_engineTurn hturn]
  exact engineStep_ends (s := { s with turns := s.turns.tail }) hbusy

end Sys2Proof.Machine
end

section
/-! Where FENC and FENCH stop on an unwritten field (10_state.md R44, 41_frame.md R137): for each reader of the held Frame, exactly
which unwritten locations stop it. -/

namespace Sys2Proof.Machine

variable {ε α : Type}

/-! ### Computations that stop on an unwritten location -/

/-- The computation stops on a read of an unwritten location (R44). -/
def Calc.Faults (c : Calc ε α) : Prop := ∃ l, c = .error (.unwritten l)

@[simp] theorem not_faults_ok (v : α) : ¬ Calc.Faults (.ok v : Calc ε α) := by simp [Calc.Faults]

@[simp] theorem not_faults_raised (e : ε) : ¬ Calc.Faults (.error (.raised e) : Calc ε α) := by simp [Calc.Faults]

@[simp] theorem faults_unwritten (l : Loc) : Calc.Faults (.error (.unwritten l) : Calc ε α) := ⟨l, rfl⟩

@[simp] theorem need_faults_iff {l : Loc} {o : Option α} : Calc.Faults (need l o : Calc ε α) ↔ o = none := by
  cases o <;> simp [need]

theorem needAll_faults_iff {loc : Nat → Loc} {read : Nat → Option α} {j n : Nat} :
    Calc.Faults (needAll loc read j n : Calc ε (List α)) ↔ ∃ k, k < n ∧ read (j + k) = none := by
  induction n generalizing j with
  | zero => simp [needAll]
  | succ n ih =>
    have hrest := ih (j := j + 1)
    simp only [Nat.add_assoc, Nat.add_comm 1] at hrest
    rw [needAll, Nat.exists_lt_succ_left, Nat.add_zero, ← hrest]
    cases read j with
    | none => simp [need]
    | some v => cases needAll loc read (j + 1) n with
      | ok vs => simp [need]
      | error e => cases e <;> simp [need]

/-! ### The fields of a property register -/

/-- PDC and VLEN are written and equal (R33). -/
def PropReg.Agrees (r : PropReg) : Prop := ∃ n, r.pdc = some n ∧ r.vlen = some n

/-- EPC or a value byte below PDC is unwritten. -/
def PropReg.Incomplete (r : PropReg) : Prop :=
  r.epc = none ∨ ∃ n j, r.pdc = some n ∧ j < n.toNat ∧ Table.get r.val j = none

theorem checkedLength_faults_iff {place : PropField → Loc} {r : PropReg} {b : Bool} {i : Byte} :
    Calc.Faults (checkedLength place r b i) ↔ r.pdc = none ∨ r.vlen = none := by
  unfold checkedLength
  cases r.pdc with
  | none => simp [need]
  | some n =>
    cases r.vlen with
    | none => simp [need]
    | some m => by_cases h : n = m <;> simp [need, h]

theorem readProperty_faults_iff {place : PropField → Loc} {r : PropReg} {n : Byte} (hn : r.pdc = some n) :
    Calc.Faults (readProperty place r n) ↔ r.Incomplete := by
  have hvals := needAll_faults_iff (ε := ErrReg) (loc := fun j => place (.val j)) (read := Table.get r.val) (j := 0)
    (n := n.toNat)
  simp only [Nat.zero_add] at hvals
  simp only [PropReg.Incomplete, hn, Option.some.injEq, exists_and_left, exists_eq_left', ← hvals, readProperty]
  cases r.epc with
  | none => simp [need]
  | some tag =>
    cases needAll (ε := ErrReg) (fun j => place (.val j)) (Table.get r.val) 0 n.toNat with
    | ok vs => simp [need]
    | error e => cases e <;> simp [need]

/-! ### The property table and the header -/

/-- The checks of `fenc` stop at an entry whose PDC or VLEN is unwritten, where every entry before it agrees. -/
theorem checkEntries_faults_iff {pt : Table PropReg} {i n : Nat} :
    Calc.Faults (checkEntries pt i n) ↔ ∃ k, k < n ∧ (∀ j, j < k → (ptEntry pt (i + j)).Agrees) ∧
      ((ptEntry pt (i + k)).pdc = none ∨ (ptEntry pt (i + k)).vlen = none) := by
  induction n generalizing i with
  | zero => simp [checkEntries]
  | succ n ih =>
    have hfirst := checkedLength_faults_iff (place := .pt i) (r := ptEntry pt i) (b := true) (i := BitVec.ofNat 8 i)
    have hrest := ih (i := i + 1)
    simp only [Nat.add_assoc, Nat.add_comm 1] at hrest
    rw [checkEntries, Nat.exists_lt_succ_left]
    simp only [Nat.forall_lt_succ_left, Nat.add_zero, ← hfirst]
    cases hc : checkedLength (.pt i) (ptEntry pt i) true (BitVec.ofNat 8 i) with
    | ok len =>
      have hagrees : (ptEntry pt i).Agrees := ⟨len, checkedLength_eq_ok_iff.1 hc⟩
      simp only [hagrees, true_and, not_faults_ok, and_false, false_or, ← hrest]
      cases checkEntries pt (i + 1) n with
      | ok lens => simp
      | error e => cases e <;> simp
    | error e =>
      cases e with
      | raised e =>
        obtain ⟨-, a, b, ha, hb, hab⟩ := checkedLength_eq_raised_iff.1 hc
        have hdiffer : ¬ (ptEntry pt i).Agrees := by
          rintro ⟨c, hc, hd⟩
          simp_all
        simp [hdiffer]
      | unwritten l => simp

/-- The checks of `fenc` pass exactly where every entry agrees. -/
theorem checkEntries_passes_iff {pt : Table PropReg} {n : Nat} :
    (∃ lens, checkEntries pt 0 n = .ok lens) ↔ ∀ j, j < n → (ptEntry pt j).Agrees := by
  constructor
  · rintro ⟨lens, h⟩ j hj
    obtain ⟨hlen, hall⟩ := checkEntries_eq_ok_iff.1 h
    have hentry := hall j lens[j] (List.getElem?_eq_getElem (by omega))
    rw [Nat.zero_add] at hentry
    exact ⟨_, hentry⟩
  · intro hall
    rcases hc : checkEntries pt 0 n with (e | l) | lens
    · obtain ⟨k, hk, -, ⟨a, b, ha, hb, hab⟩, -⟩ := checkEntries_eq_raised_iff.1 hc
      obtain ⟨c, hpdc, hvlen⟩ := hall k hk
      simp_all
    · obtain ⟨k, hk, -, hnone⟩ := checkEntries_faults_iff.1 ⟨l, hc⟩
      obtain ⟨c, hpdc, hvlen⟩ := hall k hk
      simp_all
    · exact ⟨lens, rfl⟩

theorem readEntries_faults_iff {pt : Table PropReg} {i : Nat} {lens : List Byte}
    (h : ∀ k len, lens[k]? = some len → (ptEntry pt (i + k)).pdc = some len) :
    Calc.Faults (readEntries pt i lens) ↔ ∃ k, k < lens.length ∧ (ptEntry pt (i + k)).Incomplete := by
  induction lens generalizing i with
  | nil => simp [readEntries]
  | cons len lens ih =>
    have hfirst := readProperty_faults_iff (place := .pt i) (h 0 len rfl)
    have hrest := ih (i := i + 1) fun k x hk => by
      rw [Nat.add_right_comm]
      exact h (k + 1) x hk
    simp only [Nat.add_assoc, Nat.add_comm 1] at hrest
    rw [readEntries, List.length_cons, Nat.exists_lt_succ_left, ← hrest, ← hfirst, Nat.add_zero]
    rcases hp : readProperty (.pt i) (ptEntry pt i) len with (e | l) | p
    · exact absurd hp readProperty_ne_raised
    · simp
    · cases readEntries pt (i + 1) lens with
      | ok ps => simp
      | error e => cases e <;> simp

theorem readHeader_faults_iff {r : FrameReg} {opc : Byte} :
    Calc.Faults (readHeader r opc) ↔
      r.ehd1 = none ∨ r.ehd2 = none ∨ r.tid = none ∨ r.seoj = none ∨ r.deoj = none ∨ r.esv = none := by
  unfold readHeader need
  cases r.ehd1 <;> cases r.ehd2 <;> cases r.tid <;> cases r.seoj <;> cases r.deoj <;> cases r.esv <;> simp

/-! ### The held Frame -/

/-- `fenc` stops on OPC or NPROP; in the checks; or, once they have passed, in the header or the entries (R137). -/
theorem heldFrame_faults_iff {s : State} :
    Calc.Faults (heldFrame s) ↔ s.fr.opc = none ∨ s.fr.nprop = none ∨
      ∃ np, s.fr.opc = some np ∧ s.fr.nprop = some np ∧
        (Calc.Faults (checkEntries s.pt 0 np.toNat) ∨ ∃ lens, checkEntries s.pt 0 np.toNat = .ok lens ∧
          (Calc.Faults (readHeader s.fr np) ∨ Calc.Faults (readEntries s.pt 0 lens))) := by
  unfold heldFrame
  cases s.fr.opc with
  | none => simp [need]
  | some opc =>
    cases s.fr.nprop with
    | none => simp [need]
    | some np =>
      by_cases heq : opc = np
      · subst heq
        rcases hc : checkEntries s.pt 0 opc.toNat with (e | l) | lens
        · simp [need, hc]
        · simp [need, hc]
        · rcases hh : readHeader s.fr opc with (e | l) | hd
          · exact absurd hh readHeader_ne_raised
          · simp [need, hc, hh]
          · rcases hr : readEntries s.pt 0 lens with (e | l) | ps <;> simp [need, hc, hh, hr]
      · simp [need, heq, Ne.symm heq]

/-- Once the checks have passed, `fenc` stops exactly where a header field or an entry's EPC or value byte is unwritten. -/
theorem checkedFields_fault_iff {s : State} {opc : Byte} {n : Nat} :
    (∃ lens, checkEntries s.pt 0 n = .ok lens ∧
      (Calc.Faults (readHeader s.fr opc) ∨ Calc.Faults (readEntries s.pt 0 lens))) ↔
    (∀ j, j < n → (ptEntry s.pt j).Agrees) ∧
      (Calc.Faults (readHeader s.fr opc) ∨ ∃ k, k < n ∧ (ptEntry s.pt k).Incomplete) := by
  rw [← checkEntries_passes_iff, ← exists_and_right]
  refine exists_congr fun lens => and_congr_right fun hlens => or_congr_right ?_
  obtain ⟨hlen, hall⟩ := checkEntries_eq_ok_iff.1 hlens
  rw [readEntries_faults_iff fun k len hk => (hall k len hk).1, hlen]
  simp only [Nat.zero_add]

theorem exec_faults_iff_heldFrame_faults {i : Instr} {s : State} (hi : i = .fenc ∨ i = .fench) :
    (∃ l, exec i s = .fault (.unwritten l)) ↔ Calc.Faults (heldFrame s) := by
  obtain rfl | rfl := hi <;>
    simp only [exec, execFenc, execFench, complete_eq_fault_iff, Fault.unwritten.injEq, exists_eq_right', Calc.Faults]

/-- Settles O22: both encoders stop exactly where the held Frame cannot be read, and that is decided in R137's order. -/
theorem fencAndFenchFaultOnUnwritten : Obligations.FencAndFenchFaultOnUnwritten := by
  intro i s hi
  simp only [exec_faults_iff_heldFrame_faults hi, heldFrame_faults_iff, checkedFields_fault_iff]
  simp only [readHeader_faults_iff, checkEntries_faults_iff, Nat.zero_add, PropReg.Agrees, PropReg.Incomplete, or_assoc]

end Sys2Proof.Machine
end

section
/-! Host accesses (10_state.md R22, R38 to R44): what a written location reads as, which writes are refused, what a read answers, and
what each location holds. -/

namespace Sys2Proof.Machine

/-! ### Written values -/

theorem fit_toNat {w : Nat} (b : BitVec w) : fit w b.toNat = some b :=
  fit_eq_some_iff.2 ⟨b.isLt, by simp⟩

/-- A value that fits is read back whole: "The codec never truncates a value to fit" (R9, R39). -/
theorem fit_setWidth_toNat {w v : Nat} {x : BitVec w} (h : fit w v = some x) (hw : w ≤ 32) :
    (x.setWidth 32).toNat = v := by
  obtain ⟨hv, rfl⟩ := fit_eq_some_iff.1 h
  rw [BitVec.toNat_setWidth_of_le hw, BitVec.toNat_ofNat, Nat.mod_eq_of_lt hv]

theorem propWrite_read_same {r q : PropReg} {f : PropField} {v : Nat} (h : r.write f v = some q) :
    ∃ w : Word, q.read f = some (some w) ∧ w.toNat = v := by
  cases f with
  | epc | pdc | vlen =>
    obtain ⟨b, hb, rfl⟩ := Option.map_eq_some_iff.1 h
    exact ⟨_, rfl, fit_setWidth_toNat hb (by decide)⟩
  | val j =>
    simp only [PropReg.write] at h
    split at h
    case isTrue hj =>
      obtain ⟨b, hb, rfl⟩ := Option.map_eq_some_iff.1 h
      refine ⟨b.setWidth 32, ?_, fit_setWidth_toNat hb (by decide)⟩
      simp [PropReg.read, hj, Table.get_put]
    case isFalse => cases h

theorem propWrite_read_ne {r q : PropReg} {f g : PropField} {v : Nat} (h : r.write f v = some q) (hg : g ≠ f) :
    q.read g = r.read g := by
  cases f with
  | epc | pdc | vlen =>
    obtain ⟨b, -, rfl⟩ := Option.map_eq_some_iff.1 h
    cases g <;> simp [PropReg.read] at hg ⊢
  | val j =>
    simp only [PropReg.write] at h
    split at h
    case isTrue =>
      obtain ⟨b, -, rfl⟩ := Option.map_eq_some_iff.1 h
      cases g with
      | val k =>
        have hjk : j ≠ k := fun hjk => hg (by rw [hjk])
        simp [PropReg.read, Table.get_put, hjk]
      | _ => rfl
    case isFalse => cases h

theorem frameWrite_read_same {r q : FrameReg} {f : FrameField} {v : Nat} (h : r.write f v = some q) :
    ∃ w : Word, q.read f = some w ∧ w.toNat = v := by
  cases f <;>
  · obtain ⟨b, hb, rfl⟩ := Option.map_eq_some_iff.1 h
    exact ⟨_, rfl, fit_setWidth_toNat hb (by decide)⟩

theorem frameWrite_read_ne {r q : FrameReg} {f g : FrameField} {v : Nat} (h : r.write f v = some q) (hg : g ≠ f) :
    q.read g = r.read g := by
  cases f <;>
  · obtain ⟨b, -, rfl⟩ := Option.map_eq_some_iff.1 h
    cases g <;> simp [FrameReg.read] at hg ⊢

theorem ptEntry_put (t : Table PropReg) (i : Nat) (r : PropReg) (k : Nat) :
    ptEntry (Table.put t i r) k = if i = k then r else ptEntry t k := by
  unfold ptEntry
  rw [Table.get_put]
  split <;> rfl

/-! ### Accepted writes -/

/-- An accepted write of any location but CMD makes it read the whole value (R39). -/
theorem readLoc_writeLoc_same {s t : State} {l : Loc} {v : Nat} (h : writeLoc s l v = some t) (hl : l ≠ .cmd) :
    ∃ w : Word, readLoc t l = some (some w) ∧ w.toNat = v := by
  cases l with
  | cmd => exact absurd rfl hl
  | inLen =>
    simp only [writeLoc] at h
    split at h
    case isTrue =>
      obtain ⟨w, hw, rfl⟩ := Option.map_eq_some_iff.1 h
      exact ⟨w, rfl, by simpa using fit_setWidth_toNat hw le_rfl⟩
    case isFalse => cases h
  | ibuf i =>
    simp only [writeLoc] at h
    split at h
    case isTrue hi =>
      obtain ⟨b, hb, rfl⟩ := Option.map_eq_some_iff.1 h
      refine ⟨b.setWidth 32, ?_, fit_setWidth_toNat hb (by decide)⟩
      simp [readLoc, hi, Table.get_put]
    case isFalse => cases h
  | pr f =>
    obtain ⟨r, hr, rfl⟩ := Option.map_eq_some_iff.1 h
    exact propWrite_read_same hr
  | fr f =>
    obtain ⟨r, hr, rfl⟩ := Option.map_eq_some_iff.1 h
    obtain ⟨w, hw, hv⟩ := frameWrite_read_same hr
    exact ⟨w, congrArg some hw, hv⟩
  | pt i f =>
    simp only [writeLoc] at h
    split at h
    case isTrue hi =>
      obtain ⟨r, hr, rfl⟩ := Option.map_eq_some_iff.1 h
      simpa [readLoc, hi, ptEntry_put] using propWrite_read_same hr
    case isFalse => cases h
  | _ => cases h

/-- An accepted write of any location but CMD leaves every other location as it read (R62). -/
theorem readLoc_writeLoc_ne {s t : State} {l k : Loc} {v : Nat} (h : writeLoc s l v = some t) (hl : l ≠ .cmd)
    (hk : k ≠ l) : readLoc t k = readLoc s k := by
  obtain ⟨op, rfl, -⟩ | ⟨w, rfl, -, -, rfl⟩ | ⟨i, b, rfl, -, rfl⟩ | ⟨f, r, rfl, hr, rfl⟩ | ⟨f, r, rfl, hr, rfl⟩ |
    ⟨i, f, r, rfl, -, hr, rfl⟩ := writeLoc_cases h
  · exact absurd rfl hl
  · cases k with
    | inLen => exact absurd rfl hk
    | _ => rfl
  · cases k with
    | ibuf j =>
      have hij : i ≠ j := fun hij => hk (by rw [hij])
      simp only [readLoc, Table.get_put, if_neg hij]
    | _ => rfl
  · cases k with
    | pr g => exact propWrite_read_ne hr fun hg => hk (by rw [hg])
    | _ => rfl
  · cases k with
    | fr g => exact congrArg some (frameWrite_read_ne hr fun hg => hk (by rw [hg]))
    | _ => rfl
  · cases k with
    | pt j g =>
      simp only [readLoc, ptEntry_put]
      by_cases hij : i = j
      · subst hij
        rw [if_pos rfl, propWrite_read_ne hr fun hg => hk (by rw [hg])]
      · rw [if_neg hij]
    | _ => rfl

/-- What an accepted write does to STATE, PENDING_OP and HERR: only one to CMD moves the first two (R22, R25, R26, R46). -/
theorem writeLoc_status {s t : State} {l : Loc} {v : Nat} (h : writeLoc s l v = some t) :
    t.herr = s.herr ∧ (l = .cmd → t.opState = .busy) ∧
    (l ≠ .cmd → t.opState = s.opState ∧ t.pendingOp = s.pendingOp) := by
  obtain ⟨op, rfl, -, rfl⟩ | ⟨w, rfl, -, -, rfl⟩ | ⟨i, b, rfl, -, rfl⟩ | ⟨f, r, rfl, -, rfl⟩ | ⟨f, r, rfl, -, rfl⟩ |
    ⟨i, f, r, rfl, -, -, rfl⟩ := writeLoc_cases h <;> simp

/-! ### Host writes -/

theorem hostWrite_refused {s : State} {l : Loc} {v : Nat} (h : s.opState = .busy ∨ ¬ WriteAllowed s l v) :
    hostWrite s l v = refuseAccess s := by
  obtain ⟨-, hrefused⟩ | ⟨hidle, hallowed, -⟩ := hostWrite_cases s l v
  · exact hrefused
  · exact absurd h (by simp [hidle, hallowed])

theorem hostWrite_accepted {s : State} {l : Loc} {v : Nat} (hidle : s.opState ≠ .busy) (h : WriteAllowed s l v) :
    writeLoc s l v = some (hostWrite s l v) := by
  obtain ⟨hrefused, -⟩ | ⟨-, -, hwrite⟩ := hostWrite_cases s l v
  · exact absurd hrefused (by simp [hidle, h])
  · exact hwrite

theorem writeLoc_cmd (s : State) (op : Byte) : writeLoc s .cmd op.toNat = some (issue s op) := by
  simp only [writeLoc, fit_toNat, Option.map_some]

/-- A write of a byte to CMD while not BUSY issues it (R22). -/
theorem hostWrite_cmd {s : State} (hidle : s.opState ≠ .busy) (op : Byte) : hostWrite s .cmd op.toNat = issue s op := by
  have hallowed : WriteAllowed s .cmd op.toNat := ⟨op.isLt, trivial⟩
  exact Option.some.inj ((hostWrite_accepted hidle hallowed).symm.trans (writeLoc_cmd s op))

/-- Settles O46: no write of a read-only location is allowed. -/
theorem readOnlyWritesAreRefused : Obligations.ReadOnlyWritesAreRefused := by
  rintro s l v (rfl | rfl | rfl | rfl | ⟨i, rfl⟩) <;> exact hostWrite_refused (.inr And.right)

/-- Settles O47: a write that is not allowed is refused; one that is allowed writes its location alone. -/
theorem typedWrites : Obligations.TypedWrites := by
  intro s l v hidle
  refine ⟨fun hnot => hostWrite_refused (.inr hnot), fun hallowed hl => ?_⟩
  have hwrite := hostWrite_accepted hidle hallowed
  obtain ⟨hherr, -, hkept⟩ := writeLoc_status hwrite
  exact ⟨readLoc_writeLoc_same hwrite hl, fun k hk => readLoc_writeLoc_ne hwrite hl hk, (hkept hl).1, hherr⟩

/-! ### Host reads -/

theorem hostRead_status (s : State) : hostRead s .status = .next (reply s .status (statusWord s)) := rfl

theorem hostRead_busy {s : State} {l : Loc} (hl : l ≠ .status) (hbusy : s.opState = .busy) :
    hostRead s l = .next (replyFree s l) := by
  simp only [hostRead, if_neg hl, if_pos hbusy]

theorem hostRead_written {s : State} {l : Loc} {w : Word} (hidle : s.opState ≠ .busy)
    (h : readLoc s l = some (some w)) : hostRead s l = .next (reply s l w) := by
  obtain ⟨u, hr, hu, -⟩ | ⟨-, hbusy, -⟩ | ⟨-, hnone, -⟩ | ⟨-, hnone, -⟩ := hostRead_cases s l
  · rw [h] at hu
    cases hu
    exact hr
  · exact absurd hbusy hidle
  · simp [h] at hnone
  · simp [h] at hnone

/-- Settles O51: an existing location with no value is none of the other cases of a read. -/
theorem unwrittenReadsFault : Obligations.UnwrittenReadsFault := by
  intro s l hidle h
  obtain ⟨u, -, hu, -⟩ | ⟨-, hbusy, -⟩ | ⟨-, hnone, -⟩ | ⟨-, -, hfault⟩ := hostRead_cases s l
  · simp [h] at hu
  · exact absurd hbusy hidle
  · simp [h] at hnone
  · exact hfault

/-- Settles O48: the exact STATUS, a free value while BUSY, and the location's value otherwise. -/
theorem hostReads : Obligations.HostReads := by
  intro s l
  refine ⟨⟨_, hostRead_status s, rfl, rfl⟩, fun hl hbusy => ?_, fun w hidle hw => ?_⟩
  · exact ⟨_, _, hostRead_busy hl hbusy, rfl, rfl⟩
  · exact ⟨_, hostRead_written hidle hw, rfl⟩

/-- Settles O50: an answered read and a free value touch the host's memory alone, and a refused read HERR too. -/
theorem readsHaveNoSideEffect : Obligations.ReadsHaveNoSideEffect := by
  intro s t l h
  obtain ⟨w, hr, hw, -⟩ | ⟨-, hbusy, hr⟩ | ⟨hidle, hnone, hr⟩ | ⟨-, -, hr⟩ := hostRead_cases s l <;>
    rw [h] at hr <;> cases hr
  · exact ⟨rfl, ⟨rfl, rfl⟩, by simp [hw]⟩
  · exact ⟨rfl, ⟨rfl, rfl⟩, by simp [hbusy]⟩
  · exact ⟨rfl, ⟨rfl, rfl⟩, by simp [hidle, hnone]⟩

/-- Settles O44: the write is an issue, or refused while BUSY, and the read answers PENDING_OP. -/
theorem cmdWriteIssues : Obligations.CmdWriteIssues := by
  intro s v
  refine ⟨fun hidle => hostWrite_cmd hidle v, fun hbusy => hostWrite_refused (.inl hbusy), fun hidle => ?_⟩
  exact ⟨_, hostRead_written hidle rfl, rfl⟩

/-! ### The host's turn -/

theorem hostStep_of_nextOp {s : State} {op : HostOp} (h : nextOp s = some op) : hostStep s = runHostOp op s := by
  unfold nextOp at h
  simp only [hostStep, h]

/-- Settles O45: the host's step is the refused write and an advance in its script. -/
theorem busyWritesAreRefused : Obligations.BusyWritesAreRefused := by
  intro s l v ts hbusy hturns hop
  calc step s = hostStep { s with turns := ts } := by simp only [step, hturns, takeTurn]
    _ = .next (advance (hostWrite { s with turns := ts } l v)) := hostStep_of_nextOp (s := { s with turns := ts }) hop
    _ = .next (advance (refuseAccess { s with turns := ts })) := by
      rw [hostWrite_refused (s := { s with turns := ts }) (.inl hbusy)]

end Sys2Proof.Machine
end

section
/-! What each location holds (10_state.md R23, R28, R38): the fields of the STATUS and ERR words bit by bit, and the register or byte
behind every other location. -/

namespace Sys2Proof.Machine

/-! ### STATUS -/

theorem statusWord_state (s : State) : (statusWord s).extractLsb' 0 2 = s.opState.bits :=
  BitVec.extractLsb'_append_eq_right

theorem statusWord_getLsbD (s : State) (k : Nat) :
    (statusWord s).getLsbD k = if k < 2 then s.opState.bits.getLsbD k else decide (k = 8) && s.herr := by
  simp only [statusWord, BitVec.getLsbD_append, BitVec.getLsbD_zero, BitVec.getLsbD_ofBool]
  by_cases hstate : k < 2
  · simp only [if_pos hstate]
  · by_cases hlow : k - 2 < 6
    · simp [hstate, hlow, show k ≠ 8 by omega]
    · by_cases hherr : k = 8
      · subst hherr
        simp
      · simp [hstate, hlow, hherr, show ¬ k - 2 - 6 < 1 by omega]

/-! ### ERR -/

theorem errWord_code (e : ErrReg) : (errWord e).extractLsb' 0 8 = e.code.bits :=
  BitVec.extractLsb'_append_eq_right

theorem errWord_cause (e : ErrReg) : (errWord e).extractLsb' 8 4 = e.cause.bits := by
  rw [errWord, BitVec.extractLsb'_append_eq_of_le (by decide)]
  exact BitVec.extractLsb'_append_eq_right

theorem errWord_inprop (e : ErrReg) : (errWord e).getLsbD 12 = e.inprop := by
  rw [errWord, BitVec.getLsbD_append, if_neg (by decide), BitVec.getLsbD_append, if_neg (by decide),
    BitVec.getLsbD_append, if_pos (by decide), BitVec.getLsbD_ofBool]
  rfl

theorem errWord_index (e : ErrReg) : (errWord e).extractLsb' 16 8 = e.index := by
  rw [errWord, BitVec.extractLsb'_append_eq_of_le (by decide), BitVec.extractLsb'_append_eq_of_le (by decide),
    BitVec.extractLsb'_append_eq_of_le (by decide), BitVec.extractLsb'_append_eq_of_le (by decide)]
  exact BitVec.extractLsb'_append_eq_right

/-- The bits of ERR between INPROP and INDEX, and those above INDEX, read 0 (R28). -/
theorem errWord_reserved (e : ErrReg) {k : Nat} (hk : (13 ≤ k ∧ k < 16) ∨ 24 ≤ k) : (errWord e).getLsbD k = false := by
  have hcode : ¬ k < 8 := by omega
  have hcause : ¬ k - 8 < 4 := by omega
  have hinprop : ¬ k - 8 - 4 < 1 := by omega
  simp only [errWord, BitVec.getLsbD_append, BitVec.getLsbD_zero, if_neg hcode, if_neg hcause, if_neg hinprop]
  obtain hgap | hhigh := hk
  · rw [if_pos (by omega)]
  · rw [if_neg (by omega), if_neg (by omega)]

/-! ### Every location -/

theorem readLoc_pt_val (s : State) (i j : Nat) :
    readLoc s (.pt i (.val j)) =
      if i < 255 ∧ j < 255 then some ((Table.get (ptEntry s.pt i).val j).map (BitVec.setWidth 32)) else none := by
  by_cases hi : i < 255
  · by_cases hj : j < 255 <;> simp [readLoc, PropReg.read, ptCap, valCap, hi, hj]
  · simp [readLoc, ptCap, hi]

/-- Settles O49: the fields of the two words, and every other location by the definition of its read. -/
theorem locationValues : Obligations.LocationValues := by
  intro s
  refine ⟨⟨?_, ?_, ?_⟩, fun e => ⟨?_, ?_, errWord_inprop e, errWord_index e, fun k => errWord_reserved e⟩,
    ⟨rfl, rfl, rfl, rfl, rfl, rfl⟩, fun i => ⟨rfl, rfl, rfl⟩, ⟨rfl, rfl, rfl, fun j => rfl⟩,
    ⟨rfl, rfl, rfl, rfl, rfl, rfl, rfl, rfl⟩, fun i => ⟨rfl, rfl, rfl, readLoc_pt_val s i⟩⟩
  · rw [statusWord_state]
    cases s.opState <;> rfl
  · rw [statusWord_getLsbD]
    simp
  · intro k hlow hherr
    simp [statusWord_getLsbD, hherr, Nat.not_lt.2 hlow]
  · rw [errWord_code]
    cases e.code <;> rfl
  · rw [errWord_cause]
    cases e.cause <;> rfl

end Sys2Proof.Machine
end

section
/-! STATE, PENDING_OP and HERR along a step (10_state.md R25, R26, R46): what the engine and the host do to them, and the reset
state. -/

namespace Sys2Proof.Machine

/-! ### Reset -/

/-- Settles O7: in the reset state every location has its value of R45, and no table lists anything. -/
theorem resetState : Obligations.ResetState :=
  ⟨rfl, rfl, rfl, rfl, rfl, rfl, rfl, Table.get_nil, Table.get_nil, ⟨rfl, rfl, rfl, Table.get_nil⟩,
    ⟨rfl, rfl, rfl, rfl, rfl, rfl, rfl, rfl⟩, fun _ => ⟨rfl, rfl, rfl, Table.get_nil⟩⟩

/-! ### The engine -/

theorem engineStep_opState {s t : State} (h : engineStep s = .next t) :
    if s.opState = .busy then (t.opState = .doneOk ∧ t.err = .zero) ∨ (t.opState = .doneErr ∧ t.err.code ≠ .none)
    else t.opState = s.opState := by
  obtain ⟨hidle, rfl⟩ | ⟨hbusy, i, -, hexec⟩ | ⟨hbusy, -, rfl⟩ := engineStep_next_cases h
  · rw [if_neg hidle]
  · rw [if_pos hbusy]
    exact exec_ends hexec
  · rw [if_pos hbusy]
    exact .inr ⟨rfl, by simp⟩

theorem engineStep_pendingOp {s t : State} (h : engineStep s = .next t) : t.pendingOp = s.pendingOp := by
  obtain ⟨-, rfl⟩ | ⟨-, i, -, hexec⟩ | ⟨-, -, rfl⟩ := engineStep_next_cases h
  · rfl
  · exact (exec_inputsKept hexec).pendingOp
  · rfl

/-- The engine clears HERR exactly by completing CLR (R46, R175). -/
theorem engineStep_herr {s t : State} (h : engineStep s = .next t) :
    t.herr = (s.herr && !(decide (s.opState = .busy) && decide (decode s.pendingOp = .ok .clr))) := by
  obtain ⟨hidle, rfl⟩ | ⟨hbusy, i, hdecode, hexec⟩ | ⟨hbusy, ⟨e, hdecode⟩, rfl⟩ := engineStep_next_cases h
  · simp [hidle]
  · simp [hbusy, hdecode, exec_herr hexec]
  · simp [hdecode]

/-! ### The host -/

/-- The host's next operation is a write of a byte to CMD that is accepted (R22). -/
def IssuesNext (s : State) : Prop := s.opState ≠ .busy ∧ ∃ v, nextOp s = some (.wr .cmd v) ∧ v < 256

/-- A host read changes neither STATE nor PENDING_OP, and sets HERR exactly where it is refused (R38, R43). -/
theorem hostRead_status_kept {s t : State} {l : Loc} (h : hostRead s l = .next t) :
    t.opState = s.opState ∧ t.pendingOp = s.pendingOp ∧
    (s.opState ≠ .busy ∧ readLoc s l = none → t.herr = true) ∧
    (¬ (s.opState ≠ .busy ∧ readLoc s l = none) → t.herr = s.herr) := by
  obtain ⟨hframe, -, hherr⟩ := readsHaveNoSideEffect s t l h
  refine ⟨by rw [hframe], by rw [hframe], fun ⟨hidle, hnone⟩ => by simp [hherr, hidle, hnone], fun hnot => ?_⟩
  rw [hherr, ← Bool.decide_and, decide_eq_false hnot, Bool.or_false]

/-- A refused write sets HERR alone; an accepted one keeps HERR, and STATE and PENDING_OP unless it is to CMD (R22, R40). -/
theorem hostWrite_status_kept (s : State) (l : Loc) (v : Nat) :
    ((s.opState = .busy ∨ ¬ WriteAllowed s l v) ∧ (hostWrite s l v).herr = true ∧
      (hostWrite s l v).opState = s.opState ∧ (hostWrite s l v).pendingOp = s.pendingOp) ∨
    (s.opState ≠ .busy ∧ WriteAllowed s l v ∧ (hostWrite s l v).herr = s.herr ∧
      (l = .cmd → (hostWrite s l v).opState = .busy) ∧ (l ≠ .cmd → (hostWrite s l v).opState = s.opState)) := by
  obtain ⟨hwhy, hrefused⟩ | ⟨hidle, hallowed, hwrite⟩ := hostWrite_cases s l v
  · rw [hrefused]
    exact .inl ⟨hwhy, rfl, rfl, rfl⟩
  · obtain ⟨hherr, hcmd, hother⟩ := writeLoc_status hwrite
    exact .inr ⟨hidle, hallowed, hherr, hcmd, fun hl => (hother hl).1⟩

/-- STATE along a step of the host: BUSY after an issue, and otherwise as before (R25). -/
theorem hostStep_opState {s t : State} (h : hostStep s = .next t) :
    (IssuesNext s → t.opState = .busy) ∧ (¬ IssuesNext s → t.opState = s.opState) := by
  obtain ⟨hop, rfl⟩ | ⟨l, v, hop, rfl⟩ | ⟨l, hop, hread⟩ | ⟨hwr, -, k, rfl⟩ := hostStep_next_cases h
  · simp [IssuesNext, hop]
  · rw [advance_opState]
    by_cases hl : l = .cmd
    · have hissue : IssuesNext s ↔ s.opState ≠ .busy ∧ WriteAllowed s l v := by
        simp [IssuesNext, hop, hl, WriteAllowed, Loc.width]
      rw [hissue]
      obtain ⟨hwhy, -, hkept, -⟩ | ⟨hidle, hallowed, -, hcmd, -⟩ := hostWrite_status_kept s l v
      · exact ⟨fun ⟨hidle, hallowed⟩ => absurd hwhy (by simp [hidle, hallowed]), fun _ => hkept⟩
      · exact ⟨fun _ => hcmd hl, fun hnot => absurd ⟨hidle, hallowed⟩ hnot⟩
    · have hnot : ¬ IssuesNext s := by simp [IssuesNext, hop, hl]
      obtain ⟨-, -, hkept, -⟩ | ⟨-, -, -, -, hkept⟩ := hostWrite_status_kept s l v
      · exact ⟨fun hi => absurd hi hnot, fun _ => hkept⟩
      · exact ⟨fun hi => absurd hi hnot, fun _ => hkept hl⟩
  · have hnot : ¬ IssuesNext s := by simp [IssuesNext, hop]
    exact ⟨fun hi => absurd hi hnot, fun _ => (hostRead_status_kept hread).1⟩
  · exact ⟨fun ⟨_, v, hop, _⟩ => absurd hop (hwr _ v), fun _ => rfl⟩

theorem hostStep_pendingOp_of_busy {s t : State} (hbusy : s.opState = .busy) (h : hostStep s = .next t) :
    t.pendingOp = s.pendingOp := by
  obtain ⟨-, rfl⟩ | ⟨l, v, -, rfl⟩ | ⟨l, -, hread⟩ | ⟨-, -, k, rfl⟩ := hostStep_next_cases h
  · rfl
  · rw [hostWrite_refused (.inl hbusy)]
    rfl
  · exact (hostRead_status_kept hread).2.1
  · rfl

/-- HERR along a step of the host: set by a refused access, and otherwise as before (R38 to R41, R46). -/
theorem hostStep_herr {s t : State} (h : hostStep s = .next t) :
    (RefusesNext s → t.herr = true) ∧ (¬ RefusesNext s → t.herr = s.herr) := by
  obtain ⟨hop, rfl⟩ | ⟨l, v, hop, rfl⟩ | ⟨l, hop, hread⟩ | ⟨hwr, hrd, k, rfl⟩ := hostStep_next_cases h
  · simp [RefusesNext, hop]
  · simp only [RefusesNext, hop, advance_herr]
    obtain ⟨hwhy, hset, -⟩ | ⟨hidle, hallowed, hkept, -⟩ := hostWrite_status_kept s l v
    · exact ⟨fun _ => hset, fun hnot => absurd hwhy hnot⟩
    · exact ⟨fun hwhy => absurd hwhy (by simp [hidle, hallowed]), fun _ => hkept⟩
  · have hloc : readLoc (advance s) l = readLoc s l := rfl
    obtain ⟨-, -, hset, hkept⟩ := hostRead_status_kept hread
    rw [hloc] at hset hkept
    simp only [RefusesNext, hop]
    exact ⟨hset, hkept⟩
  · have hnot : ¬ RefusesNext s := by
      unfold RefusesNext
      split
      · exact absurd ‹_› (hwr _ _)
      · exact absurd ‹_› (hrd _)
      · exact id
    exact ⟨fun hr => absurd hr hnot, fun _ => rfl⟩

/-! ### The machine -/

/-- Settles O52: the completion, the issue and reset are the only moves of STATE, agent by agent. -/
theorem stateTransitions : Obligations.StateTransitions := by
  intro s t h
  rw [step_eq_takeTurn] at h
  cases hturn : turnTaken s with
  | engine =>
    rw [hturn] at h
    exact engineStep_opState (s := { s with turns := s.turns.tail }) h
  | host =>
    rw [hturn] at h
    exact hostStep_opState (s := { s with turns := s.turns.tail }) h
  | reset =>
    rw [hturn] at h
    cases h
    rfl

/-- Settles O53: no completion writes PENDING_OP, and while BUSY every host write is refused. -/
theorem pendingOpIsFixedWhileBusy : Obligations.PendingOpIsFixedWhileBusy := by
  intro s t hbusy hreset h
  rw [step_eq_takeTurn] at h
  cases hturn : turnTaken s with
  | engine =>
    rw [hturn] at h
    exact engineStep_pendingOp (s := { s with turns := s.turns.tail }) h
  | host =>
    rw [hturn] at h
    exact hostStep_pendingOp_of_busy (s := { s with turns := s.turns.tail }) hbusy h
  | reset => exact absurd hturn hreset

/-- Settles O54: CLR and reset clear HERR, and a refused host access sets it, agent by agent. -/
theorem herrChanges : Obligations.HerrChanges := by
  intro s t h
  rw [step_eq_takeTurn] at h
  cases hturn : turnTaken s with
  | engine =>
    rw [hturn] at h
    exact engineStep_herr (s := { s with turns := s.turns.tail }) h
  | host =>
    rw [hturn] at h
    exact hostStep_herr (s := { s with turns := s.turns.tail }) h
  | reset =>
    rw [hturn] at h
    cases h
    rfl

end Sys2Proof.Machine
end

section
/-! The hex text of bytes (20_memory.md R57 to R59): the digit values and the emitted digits as numbers, a byte as its two nibbles, and
the byte read back from its text. -/

namespace Sys2Proof.Machine

variable {lower : Bool} {t : Text}

/-! ### Digits -/

/-- A character less than 16 codes above `base` is its distance from `base`, as a number too. -/
theorem sub_setWidth_toNat {c base : Byte} (hle : base.toNat ≤ c.toNat) (hlt : c.toNat - base.toNat < 16) :
    ((c - base).setWidth 4).toNat = c.toNat - base.toNat := by
  rw [BitVec.toNat_setWidth, BitVec.toNat_sub_of_le (BitVec.le_def.2 hle), Nat.mod_eq_of_lt hlt]

theorem hexval_toNat (lower : Bool) (c : Byte) : (hexval lower c).map BitVec.toNat =
    if 0x30 ≤ c.toNat ∧ c.toNat ≤ 0x39 then some (c.toNat - 0x30)
    else if 0x41 ≤ c.toNat ∧ c.toNat ≤ 0x46 then some (c.toNat - 0x37)
    else if 0x61 ≤ c.toNat ∧ c.toNat ≤ 0x66 ∧ lower = true then some (c.toNat - 0x57)
    else none := by
  simp only [hexval, BitVec.le_def, BitVec.toNat_ofNat, Nat.reducePow, Nat.reduceMod]
  split_ifs with hdigit hupper hlower
  · exact congrArg some (sub_setWidth_toNat hdigit.1 (by simp; omega))
  · exact congrArg some (sub_setWidth_toNat (by simp; omega) (by simp; omega))
  · exact congrArg some (sub_setWidth_toNat (by simp; omega) (by simp; omega))
  · rfl

theorem hexdigit_upper_toNat (v : BitVec 4) :
    (hexdigit .upper v).toNat = if v.toNat ≤ 9 then 0x30 + v.toNat else 0x41 + (v.toNat - 10) := by
  revert v
  decide

theorem hexdigit_lower_toNat (v : BitVec 4) :
    (hexdigit .lower v).toNat = if v.toNat ≤ 9 then 0x30 + v.toNat else 0x61 + (v.toNat - 10) := by
  revert v
  decide

/-! ### Bytes -/

theorem hexPair_toNat (hi lo : BitVec 4) : (hexPair hi lo).toNat = 16 * hi.toNat + lo.toNat := by
  rw [hexPair, BitVec.toNat_append, ← Nat.shiftLeft_add_eq_or_of_lt lo.isLt, Nat.shiftLeft_eq]
  omega

theorem highNibble_eq_div (b : Byte) : b.extractLsb' 4 4 = BitVec.ofNat 4 (b.toNat / 16) := by
  rw [BitVec.extractLsb', Nat.shiftRight_eq_div_pow]

theorem lowNibble_eq_mod (b : Byte) : b.extractLsb' 0 4 = BitVec.ofNat 4 (b.toNat % 16) := by
  rw [BitVec.extractLsb', Nat.shiftRight_zero]
  exact BitVec.eq_of_toNat_eq (by simp)

/-- `hexbyte` on two written characters of which one is no digit is BADHEX (R58, R101). -/
theorem readHexByte_badHex {p : Nat} {c d : Byte} (hc : t p = some c) (hd : t (p + 1) = some d)
    (hbad : hexval lower c = none ∨ hexval lower d = none) :
    readHexByte lower t p = .error (.raised .badHex) := by
  cases hv : hexval lower c with
  | none => rw [readHexByte, readDigit_eq_raised_iff.2 ⟨rfl, c, hc, hv⟩]
  | some hi =>
    have hw : hexval lower d = none := hbad.resolve_left (by simp [hv])
    rw [readHexByte, readDigit_eq_ok_iff.2 ⟨c, hc, hv⟩, readDigit_eq_raised_iff.2 ⟨rfl, d, hd, hw⟩]

/-! ### Texts -/

theorem hex_eq_flatMap (hc : HexCase) (bs : List Byte) :
    hex hc bs = bs.flatMap (fun b =>
      [hexdigit hc (BitVec.ofNat 4 (b.toNat / 16)), hexdigit hc (BitVec.ofNat 4 (b.toNat % 16))]) := by
  induction bs with
  | nil => rfl
  | cons b bs ih => rw [hex, ih, highNibble_eq_div, lowNibble_eq_mod, List.flatMap_cons]; rfl

/-- `hexbyte(hex(s), 2 * p) = s[p]` (R59). -/
theorem readHexByte_hex {hc : HexCase} (h : lower = true ∨ hc = .upper) {bs : List Byte} {p : Nat} {b : Byte}
    (hb : bs[p]? = some b) : readHexByte lower (fun k => (hex hc bs)[k]?) (2 * p) = .ok b := by
  have hspells : Spells lower (fun k => (hex hc bs)[k]?) 0 bs :=
    spells_hex h fun k c hk => by rwa [Nat.zero_add]
  have hat := hspells p b hb
  rw [Nat.zero_add] at hat
  exact readHexByte_eq_ok_iff.2 hat

/-- Settles O42: the digits and bytes as numbers, and a hex text byte by byte. -/
theorem hexTextReadsBack : Obligations.HexTextReadsBack := by
  refine ⟨hexval_toNat, hexPair_toNat, fun lower t p c d hc hd => ⟨fun hi lo hv hw => ?_, readHexByte_badHex hc hd⟩,
    fun v => ⟨hexdigit_upper_toNat v, hexdigit_lower_toNat v⟩,
    fun lower hc bs => ⟨hex_eq_flatMap hc bs, hex_length hc bs, fun h p b => readHexByte_hex h⟩⟩
  exact ⟨hexPair hi lo, readHexByte_eq_ok_iff.2 ⟨c, d, hi, lo, hc, hd, hv, hw, rfl⟩, hexPair_toNat hi lo⟩

end Sys2Proof.Machine
end

section
/-! What a completion writes to OBUF (20_memory.md R54): the bytes an operation commits there, their number against the 32-bit
OUT_LEN, and so every byte of OBUF after it. -/

namespace Sys2Proof.Machine

/-- Every operation with output commits it as some bytes from `OBUF[0]` on, with their number as OUT_LEN (R54). -/
theorem commits_output {i : Instr} {s u : State} (h : Commits i s u)
    (hi : i ∈ [Instr.penc, .pench, .fenc, .fench, .h2b, .b2h]) :
    ∃ bs : List Byte, u.outLen = BitVec.ofNat 32 bs.length ∧ u.obuf = Table.overwrite s.obuf bs := by
  cases i with
  | penc | pench | fenc | fench =>
    obtain ⟨_, -, rfl⟩ := h
    exact ⟨_, rfl, rfl⟩
  | h2b | b2h =>
    obtain ⟨_, -, -, rfl⟩ := h
    exact ⟨_, rfl, rfl⟩
  | pchk | pdec | fdec | clr => simp at hi

/-- Bytes that have been written within an array are no more than it holds. -/
theorem length_le_of_overwrite_within {m : Memory} {bs : List Byte} {size : Nat}
    (h : Memory.Within (Table.overwrite m bs) size) : bs.length ≤ size := by
  by_contra hgt
  have hlt : size < bs.length := Nat.lt_of_not_le hgt
  have hget : Table.get (Table.overwrite m bs) size = some bs[size] := by
    rw [Table.get_overwrite, if_pos hlt, List.getElem?_eq_getElem hlt]
  exact Nat.lt_irrefl _ (h.2 _ (Table.mem_of_get hget))

/-- Under the invariant OUT_LEN is the very number of bytes written: OBUF_SIZE fits 32 bits (R8, D30). -/
theorem Inv.outLen_toNat_of_overwrite {u : State} (h : Inv u) {m : Memory} {bs : List Byte}
    (hlen : u.outLen = BitVec.ofNat 32 bs.length) (hobuf : u.obuf = Table.overwrite m bs) :
    u.outLen.toNat = bs.length := by
  have hle : bs.length ≤ u.params.obufSize := length_le_of_overwrite_within (hobuf ▸ h.obuf)
  have hfits : u.params.obufSize < 2 ^ 32 := h.params.2
  rw [hlen, BitVec.toNat_ofNat, Nat.mod_eq_of_lt (hle.trans_lt hfits)]

/-- Settles O35: what is committed overwrites `OBUF[0..OUT_LEN)`, and the invariant keeps OUT_LEN exact. -/
theorem outputIsExactlyOutLenBytes : Obligations.OutputIsExactlyOutLenBytes := by
  intro i s t hinv hi h hok
  obtain ⟨u, hu, rfl⟩ | ⟨e, -, -, rfl⟩ := exec_next_cases h
  · obtain ⟨bs, hlen, hobuf⟩ := commits_output hu hi
    have hnum := (hinv.commits hu).outLen_toNat_of_overwrite hlen hobuf
    rw [succeed_outLen, succeed_obuf, hnum, hobuf]
    refine ⟨fun k hk => ⟨bs[k], ?_⟩, fun k hk => ?_⟩
    · rw [Table.get_overwrite, if_pos hk, List.getElem?_eq_getElem hk]
    · rw [Table.get_overwrite, if_neg (Nat.not_lt.2 hk)]
  · simp at hok

end Sys2Proof.Machine
end

section
/-! Bytes of IBUF at IN_LEN and above are never read (20_memory.md R53): each reader of a text depends on the text below the length
alone, and an operation's outcome carries IBUF along unread. -/

namespace Sys2Proof.Machine

variable {lower : Bool} {t u : Text} {L : Nat}

/-! ### Readers of a text -/

/-- The two texts have the same characters below position `L`, written or not. -/
def Text.AgreeBelow (t u : Text) (L : Nat) : Prop := ∀ k, k < L → t k = u k

theorem readHexByte_congr (h : Text.AgreeBelow t u L) {p : Nat} (hp : p + 2 ≤ L) :
    readHexByte lower t p = readHexByte lower u p := by
  rw [readHexByte, readHexByte, readDigit, readDigit, readDigit, readDigit, h p (by omega), h (p + 1) (by omega)]

theorem readHexBytes_congr (h : Text.AgreeBelow t u L) {p n : Nat} (hp : p + 2 * n ≤ L) :
    readHexBytes lower t p n = readHexBytes lower u p n := by
  induction n generalizing p with
  | zero => rfl
  | succ n ih => rw [readHexBytes, readHexBytes, readHexByte_congr h (by omega), ih (by omega)]

/-- The property decoder reads no digit before it has checked that the text is long enough (R101). -/
theorem pdec_congr (h : Text.AgreeBelow t u L) (p : Nat) : pdec lower t L p = pdec lower u L p := by
  unfold pdec
  split
  case isTrue => rfl
  case isFalse hfour =>
    rw [readHexByte_congr h (by omega), readHexByte_congr h (p := p + 2) (by omega)]
    cases readHexByte lower u p with
    | error e => rfl
    | ok tag =>
      cases readHexByte lower u (p + 2) with
      | error e => rfl
      | ok n =>
        dsimp only
        split
        case isTrue => rfl
        case isFalse hall => rw [readHexBytes_congr h (by omega)]

theorem pdecList_congr (h : Text.AgreeBelow t u L) (i cur n : Nat) :
    pdecList lower t L i cur n = pdecList lower u L i cur n := by
  induction n generalizing i cur with
  | zero => rfl
  | succ n ih => simp only [pdecList, pdec_congr h, ih]

theorem fdec_congr (h : Text.AgreeBelow t u L) : fdec lower t L = fdec lower u L := by
  unfold fdec
  split
  case isTrue => rfl
  case isFalse hheader => simp only [readHexBytes_congr h (p := 0) (n := 12) (by omega), pdecList_congr h]

theorem textBytes_congr (h : Text.AgreeBelow t u L) : textBytes lower t L = textBytes lower u L := by
  rw [textBytes, textBytes, readHexBytes_congr h (by omega)]

theorem needAll_congr {ε : Type} {loc : Nat → Loc} (h : Text.AgreeBelow t u L) {j n : Nat} (hj : j + n ≤ L) :
    (needAll loc t j n : Calc ε (List Byte)) = needAll loc u j n := by
  induction n generalizing j with
  | zero => rfl
  | succ n ih => rw [needAll, needAll, h j (by omega), ih (by omega)]

/-! ### IBUF replaced -/

/-- An outcome with IBUF replaced in its next state. -/
def outcomeWithIbuf (o : Host.Outcome State Fault Refusal) (m : Memory) : Host.Outcome State Fault Refusal :=
  match o with
  | .next t => .next { t with ibuf := m }
  | .fault f => .fault f
  | .refused r => .refused r

theorem ibufText_agreeBelow {s : State} {m : Memory}
    (h : ∀ k, k < s.inLen.toNat → Table.get m k = Table.get s.ibuf k) :
    Text.AgreeBelow (ibufText { s with ibuf := m }) (ibufText s) s.inLen.toNat := fun k hk => by
  simp only [ibufText, h k hk]

/-- A completion carries IBUF along where its computation and its destinations do not depend on it. -/
theorem complete_withIbuf {α : Type} {s : State} {m : Memory} {c d : Calc ErrReg α} {v w : α → State} (hc : c = d)
    (hw : ∀ a, v a = { w a with ibuf := m }) :
    complete { s with ibuf := m } c v = outcomeWithIbuf (complete s d w) m := by
  subst hc
  rcases c with (e | l) | a
  · rfl
  · rfl
  · simp only [complete, hw]
    rfl

theorem exec_withIbuf (i : Instr) {s : State} {m : Memory}
    (h : ∀ k, k < s.inLen.toNat → Table.get m k = Table.get s.ibuf k) :
    exec i { s with ibuf := m } = outcomeWithIbuf (exec i s) m := by
  have htext := ibufText_agreeBelow h
  cases i with
  | pchk | penc | pench | fenc | fench => exact complete_withIbuf rfl fun _ => rfl
  | pdec => exact complete_withIbuf (congrArg _ (pdec_congr htext 0)) fun _ => rfl
  | fdec => exact complete_withIbuf (fdec_congr htext) fun _ => rfl
  | h2b => exact complete_withIbuf (textBytes_congr htext) fun _ => rfl
  | b2h => exact complete_withIbuf (needAll_congr htext (Nat.zero_add _).le) fun _ => rfl
  | clr => rfl

/-- Settles O34: the operations that read IBUF read it through their text below IN_LEN, and the others do not read it. -/
theorem bytesBeyondInLenAreNotRead : Obligations.BytesBeyondInLenAreNotRead := by
  intro i s m h
  rw [exec_withIbuf i h]
  cases exec i s <;> rfl

end Sys2Proof.Machine
end

section
/-! The encodings (30_encoding.md): the op-code table read both ways and the codes it leaves out (R71 to R73), the lengths of a frame's
wire forms (R76, R77, R80, R81), and the host script's expansions and branches (R86, R87). -/

namespace Sys2Proof

/-! ### The op-code table -/

/-- Where no OP is repeated, an op code finds exactly the operation listed with it. -/
theorem findOp_eq_some_iff {op : Byte} {i : Instr} {rows : List (Byte × Instr)}
    (hrows : rows.Pairwise (fun a b => a.1 ≠ b.1)) : findOp op rows = some i ↔ (op, i) ∈ rows := by
  induction rows with
  | nil => simp [findOp]
  | cons row rows ih =>
    obtain ⟨o, j⟩ := row
    obtain ⟨hfirst, hrest⟩ := List.pairwise_cons.1 hrows
    rw [findOp, List.mem_cons]
    split
    case isTrue ho =>
      have hlater : (op, i) ∉ rows := fun hmem => hfirst _ hmem ho
      simp [ho, hlater, eq_comm]
    case isFalse ho => simp [ih hrest, Ne.symm ho]

theorem findOp_eq_none_iff {op : Byte} {rows : List (Byte × Instr)} :
    findOp op rows = none ↔ ∀ row ∈ rows, row.1 ≠ op := by
  induction rows with
  | nil => simp [findOp]
  | cons row rows ih =>
    rw [findOp, List.forall_mem_cons, ← ih]
    split <;> simp [*]

/-- The table of R72 lists each operation once, with its op code. -/
theorem mem_opRows_iff {op : Byte} {i : Instr} : (op, i) ∈ opRows ↔ op = encode i := by
  cases i <;> simp [opRows, encode]

theorem decode_eq_ok_iff {op : Byte} {i : Instr} : decode op = .ok i ↔ op = encode i := by
  rw [← mem_opRows_iff, ← findOp_eq_some_iff (by decide), decode]
  split <;> simp [*]

theorem decode_encode (i : Instr) : decode (encode i) = .ok i := decode_eq_ok_iff.2 rfl

/-- An op code is illegal exactly when no row of the table has it (R73). -/
theorem decode_isError_iff {op : Byte} : (∃ e, decode op = .error e) ↔ ∀ row ∈ opRows, row.1 ≠ op := by
  rw [← findOp_eq_none_iff, decode]
  split <;> simp [*]

/-- Settles O1: each row is an operation's op code decoded. -/
theorem opCodeTable : Obligations.OpCodeTable :=
  ⟨decode_encode .pchk, decode_encode .pdec, decode_encode .penc, decode_encode .pench, decode_encode .fdec,
    decode_encode .fenc, decode_encode .fench, decode_encode .h2b, decode_encode .b2h, decode_encode .clr⟩

/-- Settles O2: the op code of an operation is the only byte that decodes to it. -/
theorem decodeOfEncode : Obligations.DecodeOfEncode :=
  fun i _ => ⟨decode_encode i, fun _ => decode_eq_ok_iff.1⟩

namespace Machine

/-- Settles O3: the listed ranges are the gaps between the rows; the write is an issue, and the completion IllegalOp. -/
theorem illegalOpCodes : Obligations.IllegalOpCodes := by
  intro b
  constructor
  · rw [decode_isError_iff]
    simp only [opRows, List.forall_mem_cons, List.not_mem_nil, false_imp_iff, implies_true, and_true, ne_eq,
      ← BitVec.toNat_inj, BitVec.toNat_ofNat, Nat.reducePow, Nat.reduceMod]
    have hlt : b.toNat < 256 := b.isLt
    omega
  · intro e hdecode s hidle
    exact ⟨hostWrite_cmd hidle b, engineStep_of_illegal (s := issue s b) rfl hdecode⟩

/-! ### The lengths of a frame -/

theorem recordsBytes_length {ps : List Property} (h : ∀ p ∈ ps, p.WellFormed) :
    (recordsBytes ps).length = (ps.map fun p => 2 + p.length.toNat).sum := by
  induction ps with
  | nil => rfl
  | cons p ps ih =>
    obtain ⟨hp, hps⟩ := List.forall_mem_cons.1 h
    have hlen : p.length.toNat = p.value.length := hp
    rw [recordsBytes, List.length_append, recordBytes_length, ih hps, List.map_cons, List.sum_cons, hlen]

/-- Settles O43: the header's 12 bytes and the records', and two characters for each byte. -/
theorem frameLengths : Obligations.FrameLengths := by
  intro f hc hf
  have hbinary : (frameBytes f).length = 12 + (f.props.map fun p => 2 + p.length.toNat).sum := by
    rw [frameBytes_length, recordsBytes_length hf.2]
  have hdouble : (f.props.map fun p => 4 + 2 * p.length.toNat).sum =
      2 * (f.props.map fun p => 2 + p.length.toNat).sum := by
    simp only [← List.sum_map_mul_left, Nat.mul_add]
  have hmax := frameBytes_length_le hf
  rw [hex_length, hdouble]
  exact ⟨hbinary, by omega, hmax, by omega, by omega, by omega⟩

/-! ### The host's script -/

/-- Settles O58: each statement expands by definition. -/
theorem pseudoStatements : Obligations.PseudoStatements := fun _ => ⟨rfl, fun _ => rfl, rfl, rfl⟩

theorem step_of_hostTurn {s : State} {ts : List Turn} {op : HostOp} (hturns : s.turns = .host :: ts)
    (hop : nextOp s = some op) : step s = runHostOp op { s with turns := ts } := by
  calc step s = hostStep { s with turns := ts } := by simp only [step, hturns, takeTurn]
    _ = runHostOp op { s with turns := ts } := hostStep_of_nextOp (s := { s with turns := ts }) hop

/-- A branch whose label the script has goes there if it is taken, and otherwise on (R86). -/
theorem branch_of_labelPos {s : State} {n k : Nat} (h : labelPos n 0 s.host.script = some k) (taken : Bool) :
    branch s taken n = .next (goTo s (if taken = true then k else s.host.pos + 1)) := by
  cases taken with
  | true => simp only [branch, h, if_true]
  | false => rfl

theorem sawState_of_lastStatus {s : State} {w : Word} (h : s.host.lastStatus = some w) (st : OpState) :
    sawState s st = decide (w.extractLsb' 0 2 = st.bits) := by
  simp only [sawState, h, statusState, beq_eq_decide]

theorem sawHerr_of_lastStatus {s : State} {w : Word} (h : s.host.lastStatus = some w) :
    sawHerr s = w.getLsbD 8 := by
  simp only [sawHerr, h, statusHerr]

theorem runHostOp_backIfBusy (s : State) :
    runHostOp .backIfBusy s =
      .next (goTo s (if sawState s .busy = true then s.host.pos - 1 else s.host.pos + 1)) := by
  rw [runHostOp, advance, ← apply_ite (goTo s)]

/-- Settles O59: each branch is taken on the STATE or HERR field of the STATUS value last read. -/
theorem hostBranches : Obligations.HostBranches := by
  intro s ts n k w hturns hstatus hlabel
  have hstate := sawState_of_lastStatus (s := { s with turns := ts }) hstatus
  have hherr := sawHerr_of_lastStatus (s := { s with turns := ts }) hstatus
  have hbranch := branch_of_labelPos (s := { s with turns := ts }) hlabel
  refine ⟨fun hop => ?_, fun hop => ?_, fun hop => ?_, fun hop => ?_⟩ <;> rw [step_of_hostTurn hturns hop]
  · exact hbranch true
  · rw [runHostOp, hbranch, hstate]
    simp only [decide_eq_true_eq]
    rfl
  · rw [runHostOp, hbranch, hherr]
    rfl
  · rw [runHostOp_backIfBusy, hstate]
    simp only [decide_eq_true_eq]
    rfl

end Machine
end Sys2Proof
end

section
/-! The property operations (40_property.md): PDEC's outcomes in the order of R192, the outcomes of PCHK, PENC and PENCH, the
property round trip, and what these operations and the other encoders leave unchanged. -/

namespace Sys2Proof.Machine

/-! ### The property decoder's failures -/

section
variable {lower : Bool} {t : Text} {L p : Nat}

theorem pdec_of_short (h : L - p < 4) : pdec lower t L p = .error (.raised .short) := by
  rw [pdec, if_pos h]

/-- Tag and length are the first two bytes of the text, and a halt in reading them is the decoder's (R100, R101). -/
theorem pdec_of_head_error {e : Halt Cause} (hlen : 4 ≤ L - p) (h : readHexBytes lower t p 2 = .error e) :
    pdec lower t L p = .error e := by
  rw [pdec, if_neg (by omega)]
  simp only [readHexBytes] at h
  cases htag : readHexByte lower t p with
  | error x => simpa [htag] using h
  | ok tag =>
    cases hn : readHexByte lower t (p + 2) with
    | error x => simpa [htag, hn] using h
    | ok n => simp [htag, hn] at h

/-- With tag and length decoded, what is left is the second length check and the value bytes (R100). -/
theorem pdec_of_head {tag n : Byte} (hlen : 4 ≤ L - p) (h : Spells lower t p [tag, n]) :
    pdec lower t L p =
      if L - p < 4 + 2 * n.toNat then .error (.raised .short)
      else (readHexBytes lower t (p + 4) n.toNat).map fun value => (⟨tag, n, value⟩, 4 + 2 * n.toNat) := by
  obtain ⟨htag, hrest⟩ := spells_cons.1 h
  obtain ⟨hn, -⟩ := spells_cons.1 hrest
  rw [pdec, if_neg (by omega), readHexByte_eq_ok_iff.2 htag]
  simp only [readHexByte_eq_ok_iff.2 hn]
  split
  · rfl
  · cases readHexBytes lower t (p + 4) n.toNat <;> rfl

theorem pdec_of_short_value {tag n : Byte} (hlen : 4 ≤ L - p) (h : Spells lower t p [tag, n])
    (hshort : L - p < 4 + 2 * n.toNat) : pdec lower t L p = .error (.raised .short) := by
  rw [pdec_of_head hlen h, if_pos hshort]

/-- A halt in reading the value bytes is the decoder's (R100, R101). -/
theorem pdec_of_value_error {tag n : Byte} {e : Halt Cause} (h : Spells lower t p [tag, n])
    (hlen : 4 + 2 * n.toNat ≤ L - p) (hvalue : readHexBytes lower t (p + 4) n.toNat = .error e) :
    pdec lower t L p = .error e := by
  rw [pdec_of_head (by omega) h, if_neg (by omega), hvalue]
  rfl

end

/-! ### PDEC -/

theorem execPdec_of_raised {s : State} {c : Cause}
    (h : pdec s.params.hexInLower (ibufText s) s.inLen.toNat 0 = .error (.raised c)) :
    exec .pdec s = .next (raiseErr s ⟨.malformedProperty, c, false, 0⟩) := by
  rw [exec, execPdec, h]
  rfl

theorem execPdec_of_unwritten {s : State} {l : Loc}
    (h : pdec s.params.hexInLower (ibufText s) s.inLen.toNat 0 = .error (.unwritten l)) :
    exec .pdec s = .fault (.unwritten l) := by
  rw [exec, execPdec, h]
  rfl

/-- Settles O11: PR is loaded with the Property the text spells, whatever follows it. -/
theorem pdecDecodes : Obligations.PdecDecodes := by
  intro s p hwf hle hspells
  have hlen : p.length.toNat = p.value.length := hwf
  rw [hlen] at hle ⊢
  exact ⟨_, exec_of_commits (i := .pdec) ⟨p, hwf, hle, hspells, rfl⟩, rfl, rfl, load_holds s.pr hwf,
    word_toNat_ofNat_of_le hle⟩

/-- Settles O12: each clause is one halt of the decoder, and PDEC reports it. -/
theorem pdecReportsShortAndBadHex : Obligations.PdecReportsShortAndBadHex := by
  intro s
  refine ⟨fun hshort => ?_, fun hlen hbad => ?_, fun k hlen hk hnone => ?_, fun tag n hlen hhead =>
    ⟨fun hshort => ?_, fun hfits hbad => ?_, fun k hfits hk hnone => ?_⟩⟩
  · exact execPdec_of_raised (pdec_of_short hshort)
  · exact execPdec_of_raised (pdec_of_head_error hlen (readHexBytes_eq_raised_iff.2 ⟨rfl, hbad⟩))
  · rw [← Nat.zero_add k]
    exact execPdec_of_unwritten (pdec_of_head_error hlen (readHexBytes_unwritten hk hnone))
  · exact execPdec_of_raised (pdec_of_short_value hlen hhead hshort)
  · exact execPdec_of_raised (pdec_of_value_error hhead hfits (readHexBytes_eq_raised_iff.2 ⟨rfl, hbad⟩))
  · exact execPdec_of_unwritten (pdec_of_value_error hhead hfits (readHexBytes_unwritten hk hnone))

/-! ### PCHK -/

/-- Settles O10: the construction check decides PCHK. -/
theorem pchkChecksConstruction : Obligations.PchkChecksConstruction := by
  refine ⟨decode_encode .pchk, fun s => ⟨fun n hpdc hvlen => ?_, fun n m hpdc hvlen hne => ?_, fun hnone => ?_⟩⟩
  · exact exec_of_commits (i := .pchk) ⟨⟨n, hpdc, hvlen⟩, rfl⟩
  · exact complete_eq_next_iff.2 (.inr ⟨_, checkedLength_eq_raised_iff.2 ⟨rfl, n, m, hpdc, hvlen, hne⟩, rfl⟩)
  · obtain ⟨l, hl⟩ := checkedLength_faults_iff (place := .pr) (b := false) (i := 0) |>.2 hnone
    exact ⟨l, complete_eq_fault_iff.2 ⟨l, hl, rfl⟩⟩

/-! ### PENC and PENCH -/

/-- The record of PR cannot be read where PDC or VLEN is unwritten, or where they agree and EPC or a value byte is unwritten
(R44, R106). -/
theorem prRecord_faults_iff {s : State} :
    Calc.Faults (prRecord s) ↔ s.pr.pdc = none ∨ s.pr.vlen = none ∨ s.pr.Agrees ∧ s.pr.Incomplete := by
  have hcheck := checkedLength_faults_iff (place := .pr) (r := s.pr) (b := false) (i := 0)
  unfold prRecord
  cases hlen : checkedLength .pr s.pr false 0 with
  | error e =>
    have hdisagree : ¬ s.pr.Agrees := fun ⟨n, hn⟩ => by simp [checkedLength_eq_ok_iff.2 hn] at hlen
    rw [hlen] at hcheck
    simpa [hdisagree, Calc.Faults] using hcheck
  | ok n =>
    obtain ⟨hpdc, hvlen⟩ := checkedLength_eq_ok_iff.1 hlen
    have hagrees : s.pr.Agrees := ⟨n, hpdc, hvlen⟩
    have hread := readProperty_faults_iff (place := .pr) hpdc
    simp only [hpdc, hvlen, hagrees, true_and, reduceCtorEq, false_or, ← hread]
    cases readProperty .pr s.pr n <;> simp [Calc.Faults]

section
variable {i : Instr} {s : State} (hi : i = .penc ∨ i = .pench)
include hi

theorem exec_faults_iff_prRecord_faults : (∃ l, exec i s = .fault (.unwritten l)) ↔ Calc.Faults (prRecord s) := by
  obtain rfl | rfl := hi <;>
    simp only [exec, execPenc, execPench, complete_eq_fault_iff, Fault.unwritten.injEq, exists_eq_right', Calc.Faults]

/-- Both encoders raise the construction check's error (R106, R107). -/
theorem exec_recordEncoder_mismatch {n m : Byte} (hpdc : s.pr.pdc = some n) (hvlen : s.pr.vlen = some m) (hne : n ≠ m) :
    exec i s = .next (raiseErr s ⟨.propertyLengthMismatch, .mismatch, false, 0⟩) := by
  have hraised := prRecord_eq_raised_iff.2 ⟨rfl, n, m, hpdc, hvlen, hne⟩
  obtain rfl | rfl := hi <;> exact complete_eq_next_iff.2 (.inr ⟨_, hraised, rfl⟩)

theorem exec_recordEncoder_incomplete {n : Byte} (hpdc : s.pr.pdc = some n) (hvlen : s.pr.vlen = some n)
    (hmissing : s.pr.epc = none ∨ ∃ j, j < n.toNat ∧ Table.get s.pr.val j = none) :
    ∃ l, exec i s = .fault (.unwritten l) :=
  (exec_faults_iff_prRecord_faults hi).2 <| prRecord_faults_iff.2 <|
    .inr (.inr ⟨⟨n, hpdc, hvlen⟩, hmissing.imp_right fun ⟨j, hj⟩ => ⟨n, j, hpdc, hj⟩⟩)

theorem exec_recordEncoder_unwritten_length (h : s.pr.pdc = none ∨ s.pr.vlen = none) :
    ∃ l, exec i s = .fault (.unwritten l) :=
  (exec_faults_iff_prRecord_faults hi).2 (prRecord_faults_iff.2 (h.imp_right .inl))

end

theorem writeOut_outLen_toNat {s : State} {bs : List Byte} (h : bs.length < 2 ^ 32) :
    (writeOut s bs).outLen.toNat = bs.length :=
  (BitVec.toNat_ofNat bs.length 32).trans (Nat.mod_eq_of_lt h)

theorem writeOut_obuf_get (s : State) (bs : List Byte) (k : Nat) :
    Table.get (writeOut s bs).obuf k = if k < bs.length then bs[k]? else Table.get s.obuf k :=
  Table.get_overwrite _ _ _

/-- An encoder that writes out `bs` succeeds with OUT_LEN = `|bs|` and `OBUF[0..|bs|) = bs`, and leaves OBUF beyond unchanged
(R54, R191). -/
theorem exec_writes_output {i : Instr} {s : State} {bs : List Byte} {n : Nat}
    (h : exec i s = .next (succeed (writeOut s bs))) (hn : bs.length = n) (hfits : n < 2 ^ 32) :
    ∃ t, exec i s = .next t ∧ t.opState = .doneOk ∧ t.err = .zero ∧ t.outLen.toNat = n ∧
      (∀ k b, bs[k]? = some b → Table.get t.obuf k = some b) ∧
      ∀ k, n ≤ k → Table.get t.obuf k = Table.get s.obuf k := by
  subst hn
  refine ⟨_, h, rfl, rfl, writeOut_outLen_toNat (s := s) hfits, fun k b hb => ?_, fun k hk => ?_⟩ <;>
    rw [succeed_obuf, writeOut_obuf_get]
  · rw [if_pos (List.getElem?_eq_some_iff.1 hb).1, hb]
  · rw [if_neg (Nat.not_lt.2 hk)]

theorem exec_penc_of_holds {s : State} {p : Property} (h : s.pr.Holds p) :
    exec .penc s = .next (succeed (writeOut s (recordBytes p))) :=
  exec_of_commits (i := .penc) ⟨p, h, rfl⟩

theorem exec_pench_of_holds {s : State} {p : Property} (h : s.pr.Holds p) :
    exec .pench s = .next (succeed (writeOut s (hex s.params.hexCase (recordBytes p)))) :=
  exec_of_commits (i := .pench) ⟨p, h, rfl⟩

/-- A well-formed Property's record has its declared length and two bytes more (R76). -/
theorem recordBytes_length_of_wellFormed {p : Property} (h : p.WellFormed) :
    (recordBytes p).length = 2 + p.length.toNat := by
  have hlen : p.length.toNat = p.value.length := h
  rw [recordBytes_length, hlen]

/-- Settles O13: PENC writes out the record of PR, and otherwise halts as the reading of that record does. -/
theorem pencEncodes : Obligations.PencEncodes := by
  refine ⟨decode_encode .penc, fun s => ⟨fun p hp => ?_, fun _ _ => exec_recordEncoder_mismatch (.inl rfl),
    fun _ => exec_recordEncoder_incomplete (.inl rfl), exec_recordEncoder_unwritten_length (.inl rfl)⟩⟩
  have hlen := recordBytes_length_of_wellFormed hp.1
  exact exec_writes_output (exec_penc_of_holds hp) hlen (by omega)

/-- Settles O14: PENCH writes out the hex text of the record, with PENC's errors and faults. -/
theorem penchEncodes : Obligations.PenchEncodes := by
  refine ⟨decode_encode .pench, fun s => ⟨fun p hp => ?_, fun _ _ => exec_recordEncoder_mismatch (.inr rfl),
    fun _ => exec_recordEncoder_incomplete (.inr rfl), exec_recordEncoder_unwritten_length (.inr rfl)⟩⟩
  have hlen := recordBytes_length_of_wellFormed hp.1
  exact exec_writes_output (exec_pench_of_holds hp) (by rw [hex_length, ← recordBytes, hlen]; omega) (by omega)

/-! ### The round trip -/

/-- The decoder's text is the output copied into IBUF, as far as the output goes (R53, R108). -/
theorem CopiedOut.ibufText_eq {t u : State} (h : CopiedOut t u) {k : Nat} (hk : k < t.outLen.toNat) :
    ibufText u k = Table.get t.obuf k := by
  obtain ⟨hroom, hparams, -, hcopy⟩ := h
  rw [ibufText, hparams, if_pos (hk.trans_le hroom), hcopy k hk]

/-- Hex text that has been written out and copied to IBUF spells its bytes there, if the letter cases agree (R59, R108,
R140). -/
theorem CopiedOut.spells {s u : State} {bs : List Byte} (hfits : 2 * bs.length < 2 ^ 32) (hcase : CasesAgree s.params)
    (h : CopiedOut (succeed (writeOut s (hex s.params.hexCase bs))) u) :
    Spells u.params.hexInLower (ibufText u) 0 bs := by
  have ⟨_, hparams, _⟩ := h
  have houtLen : (writeOut s (hex s.params.hexCase bs)).outLen.toNat = (hex s.params.hexCase bs).length :=
    writeOut_outLen_toNat (by rwa [hex_length])
  rw [hparams, succeed_params, writeOut_params]
  refine spells_hex (hc := s.params.hexCase) hcase fun k c hc => ?_
  have hk : k < (hex s.params.hexCase bs).length := (List.getElem?_eq_some_iff.1 hc).1
  rw [Nat.zero_add, h.ibufText_eq (hk.trans_eq houtLen.symm), succeed_obuf, writeOut_obuf_get, if_pos hk, hc]

/-- Settles O15: the copied text spells the record of PR, which PDEC decodes; and both encoders write out the one record. -/
theorem propertyRoundTrip : Obligations.PropertyRoundTrip := by
  intro s p _ hp
  have hwf : p.WellFormed := hp.1
  have hrecord := recordBytes_length_of_wellFormed hwf
  have hpenc : (writeOut s (recordBytes p)).outLen.toNat = (recordBytes p).length := writeOut_outLen_toNat (by omega)
  have hpench : (writeOut s (hex s.params.hexCase (recordBytes p))).outLen.toNat = 2 * (recordBytes p).length := by
    rw [writeOut_outLen_toNat (by rw [hex_length]; omega), hex_length]
  refine ⟨_, _, exec_pench_of_holds hp, exec_penc_of_holds hp, rfl, rfl, fun bs hlen hbytes => ?_,
    fun hcase u hcopy => ?_⟩
  · rw [succeed_outLen, hpenc] at hlen
    obtain rfl : bs = recordBytes p := List.ext_getElem? fun k => by
      by_cases hk : k < bs.length
      · rw [← hbytes k hk, succeed_obuf, writeOut_obuf_get, if_pos (hk.trans_eq hlen)]
      · rw [List.getElem?_eq_none (by omega), List.getElem?_eq_none (by omega)]
    refine ⟨hpench, fun k hk => ?_⟩
    rw [succeed_outLen, hpench, ← hex_length s.params.hexCase] at hk
    rw [succeed_obuf, writeOut_obuf_get, if_pos hk]
  · have ⟨_, _, hcopied, _⟩ := hcopy
    have hinLen : u.inLen.toNat = 2 * (recordBytes p).length := by rw [hcopied, succeed_outLen, hpench]
    have hspells := hcopy.spells (bs := recordBytes p) (by omega) hcase
    obtain ⟨v, hv, hok, -, hholds, hconsumed⟩ := pdecDecodes u p hwf (by omega) hspells
    exact ⟨v, hv, hok, hholds, hconsumed⟩

/-! ### Frames -/

/-- Settles O37: a success commits the state as it is, and an error writes STATE and ERR. -/
theorem pchkFrame : Obligations.PchkFrame := by
  intro s t h
  obtain ⟨u, ⟨-, rfl⟩, rfl⟩ | ⟨e, -, -, rfl⟩ := exec_next_cases h
  · exact ⟨rfl, fun _ => rfl, fun _ => rfl⟩
  · exact ⟨rfl, fun _ => rfl, fun _ => rfl⟩

/-- Settles O38: a success loads PR and sets CONSUMED, and the load keeps VAL from the declared length on. -/
theorem pdecFrame : Obligations.PdecFrame := by
  intro s t h
  obtain ⟨u, ⟨p, hwf, -, -, rfl⟩, rfl⟩ | ⟨e, -, -, rfl⟩ := exec_next_cases h
  · refine ⟨rfl, fun herr => by simp at herr, fun j n _ hn hj => ?_, fun _ => rfl, fun _ => rfl⟩
    obtain rfl : p.length = n := Option.some.inj hn
    have hlen : p.length.toNat = p.value.length := hwf
    exact (load_val s.pr p j).trans (if_neg (by omega))
  · exact ⟨rfl, fun _ => ⟨rfl, rfl⟩, fun _ _ hok => by simp at hok, fun _ => rfl, fun _ => rfl⟩

/-- An encoder commits one output, short enough for the 32-bit OUT_LEN (R54, R76, R81). -/
theorem commits_encoder {i : Instr} {s u : State} (h : Commits i s u) (hi : i ∈ [Instr.penc, .pench, .fenc, .fench]) :
    ∃ bs : List Byte, bs.length < 2 ^ 32 ∧ u = writeOut s bs := by
  cases i with
  | penc =>
    obtain ⟨p, ⟨hwf, -⟩, rfl⟩ := h
    have hlen := recordBytes_length_of_wellFormed hwf
    exact ⟨_, by omega, rfl⟩
  | pench =>
    obtain ⟨p, ⟨hwf, -⟩, rfl⟩ := h
    have hlen := recordBytes_length_of_wellFormed hwf
    exact ⟨_, by rw [hex_length]; omega, rfl⟩
  | fenc =>
    obtain ⟨f, ⟨hwf, -⟩, rfl⟩ := h
    have hlen := frameBytes_length_le hwf
    exact ⟨_, by omega, rfl⟩
  | fench =>
    obtain ⟨f, ⟨hwf, -⟩, rfl⟩ := h
    have hlen := frameBytes_length_le hwf
    exact ⟨_, by rw [hex_length]; omega, rfl⟩
  | pchk | pdec | fdec | h2b | b2h | clr => simp at hi

/-- Settles O40: a success writes out one output, which keeps OBUF from OUT_LEN on. -/
theorem encoderFrame : Obligations.EncoderFrame := by
  intro i s t hi h
  obtain ⟨u, hu, rfl⟩ | ⟨e, -, -, rfl⟩ := exec_next_cases h
  · obtain ⟨bs, hfits, rfl⟩ := commits_encoder hu hi
    refine ⟨rfl, fun herr => by simp at herr, fun _ => rfl, fun k hk => ?_⟩
    have hbeyond : bs.length ≤ k := (writeOut_outLen_toNat (s := s) hfits).symm.trans_le (hk rfl)
    exact (writeOut_obuf_get s bs k).trans (if_neg (Nat.not_lt.2 hbeyond))
  · exact ⟨rfl, fun _ => rfl, fun _ => rfl, fun _ _ => rfl⟩

end Sys2Proof.Machine
end

section
/-! The frame operations (41_frame.md): FDEC's outcomes in the order of R192, what FENC and FENCH write and check, the round trip and
the normal form of a decoded text, and what FDEC leaves unchanged. -/

namespace Sys2Proof.Machine

/-! ### The wire form and the held Frame -/

theorem recordsBytes_eq_flatMap (ps : List Property) :
    recordsBytes ps = ps.flatMap fun p => p.tag :: p.length :: p.value := by
  induction ps with
  | nil => rfl
  | cons p ps ih => rw [recordsBytes, ih, List.flatMap_cons, recordBytes]

/-- The frame's bytes with the records written out (R75, R80). -/
theorem frameBytes_eq_flatMap (h : Header) (ps : List Property) :
    frameBytes ⟨h, ps⟩ = headerBytes h ++ ps.flatMap fun p => p.tag :: p.length :: p.value :=
  congrArg (headerBytes h ++ ·) (recordsBytes_eq_flatMap ps)

/-- Properties held in PT are well formed, so with OPC as their number they make a Frame (R37). -/
theorem holdsFrame_of_entries {s : State} {h : Header} {ps : List Property} (hcount : h.opc.toNat = ps.length)
    (hfr : s.fr = FrameReg.load h) (hpt : ∀ i p, ps[i]? = some p → (ptEntry s.pt i).Holds p) :
    HoldsFrame s ⟨h, ps⟩ := by
  refine ⟨⟨hcount, fun p hp => ?_⟩, hfr, hpt⟩
  obtain ⟨i, hi⟩ := List.getElem?_of_mem hp
  exact (hpt i p hi).1

theorem exec_fenc_of_holds {s : State} {f : Frame} (h : HoldsFrame s f) :
    exec .fenc s = .next (succeed (writeOut s (frameBytes f))) :=
  exec_of_commits (i := .fenc) ⟨f, h, rfl⟩

theorem exec_fench_of_holds {s : State} {f : Frame} (h : HoldsFrame s f) :
    exec .fench s = .next (succeed (writeOut s (hex s.params.hexCase (frameBytes f)))) :=
  exec_of_commits (i := .fench) ⟨f, h, rfl⟩

/-- Settles O19: FENC writes out the bytes of the Frame that FR and PT hold. -/
theorem fencEncodes : Obligations.FencEncodes := by
  intro s h ps hcount hfr hpt bytes
  have hbytes : frameBytes ⟨h, ps⟩ = bytes := frameBytes_eq_flatMap h ps
  have hheld := holdsFrame_of_entries hcount hfr hpt
  have hmax := frameBytes_length_le hheld.1
  rw [← hbytes]
  exact exec_writes_output (exec_fenc_of_holds hheld) rfl (by omega)

/-- Settles O20: FENCH writes out the hex text of the bytes of the Frame that FR and PT hold. -/
theorem fenchEncodes : Obligations.FenchEncodes := by
  intro s h ps hcount hfr hpt bytes
  have hbytes : frameBytes ⟨h, ps⟩ = bytes := frameBytes_eq_flatMap h ps
  have hheld := holdsFrame_of_entries hcount hfr hpt
  have hmax := frameBytes_length_le hheld.1
  rw [← hbytes]
  exact exec_writes_output (exec_fench_of_holds hheld) (hex_length ..) (by omega)

/-! ### FDEC on a text that spells a Frame -/

/-- FDEC loads FR and PT with the Frame the text begins with, and consumes its hex length (R136). -/
theorem exec_fdec_of_spells {s : State} {f : Frame} (hwf : f.WellFormed)
    (hle : 2 * (frameBytes f).length ≤ s.inLen.toNat)
    (hspells : Spells s.params.hexInLower (ibufText s) 0 (frameBytes f)) :
    ∃ t, exec .fdec s = .next t ∧ t.opState = .doneOk ∧ t.err = .zero ∧ HoldsFrame t f ∧
      t.consumed.toNat = 2 * (frameBytes f).length :=
  ⟨_, exec_of_commits (i := .fdec) ⟨f, hwf, hle, hspells, rfl⟩, rfl, rfl, holdsFrame_of_loaded (s := s) hwf rfl rfl,
    word_toNat_ofNat_of_le hle⟩

/-- Settles O16: the bytes written out are the Frame's, and FDEC loads it. -/
theorem fdecDecodes : Obligations.FdecDecodes := by
  intro s h ps hcount hwf bytes hle hspells
  have hbytes : frameBytes ⟨h, ps⟩ = bytes := frameBytes_eq_flatMap h ps
  rw [← hbytes] at hle hspells ⊢
  obtain ⟨t, ht, hok, herr, ⟨-, hfr, hpt⟩, hconsumed⟩ := exec_fdec_of_spells ⟨hcount, hwf⟩ hle hspells
  exact ⟨t, ht, hok, herr, hfr, hpt, hconsumed⟩

/-- A frame's hex text fits the 32-bit OUT_LEN (R81). -/
theorem writeOut_frameHex_outLen (s : State) {f : Frame} (hwf : f.WellFormed) (hc : HexCase) :
    (writeOut s (hex hc (frameBytes f))).outLen.toNat = 2 * (frameBytes f).length := by
  have hmax := frameBytes_length_le hwf
  rw [writeOut_outLen_toNat (by rw [hex_length]; omega), hex_length]

/-- A copy of FENCH's output in IBUF is a text that spells the frame's bytes, and nothing more (R140). -/
theorem CopiedOut.spells_frame {s u : State} {f : Frame} (hwf : f.WellFormed) (hcase : CasesAgree s.params)
    (h : CopiedOut (succeed (writeOut s (hex s.params.hexCase (frameBytes f)))) u) :
    u.inLen.toNat = 2 * (frameBytes f).length ∧ Spells u.params.hexInLower (ibufText u) 0 (frameBytes f) := by
  have hmax := frameBytes_length_le hwf
  have ⟨_, _, hcopied, _⟩ := h
  exact ⟨by rw [hcopied, succeed_outLen, writeOut_frameHex_outLen s hwf], h.spells (by omega) hcase⟩

/-- Settles O23: the copied text spells the held Frame's bytes, and FDEC loads that Frame. -/
theorem frameRoundTrip : Obligations.FrameRoundTrip := by
  intro s f _ hcase hheld
  refine ⟨_, exec_fench_of_holds hheld, rfl, fun u hcopy => ?_⟩
  obtain ⟨hinLen, hspells⟩ := hcopy.spells_frame hheld.1 hcase
  obtain ⟨v, hv, hok, -, hdecoded, hconsumed⟩ := exec_fdec_of_spells hheld.1 hinLen.ge hspells
  have hfr : v.fr = s.fr := hdecoded.2.1.trans hheld.2.1.symm
  refine ⟨v, hv, hok, hdecoded, hfr, BitVec.eq_of_toNat_eq ?_⟩
  rw [hconsumed, succeed_outLen, writeOut_frameHex_outLen s hheld.1]

/-! ### FDEC's errors -/

/-- The records' hex length, as R132 sums it in its cursor (R77, R81). -/
theorem two_mul_recordsBytes_length {ps : List Property} (h : ∀ p ∈ ps, p.WellFormed) :
    2 * (recordsBytes ps).length = (ps.map fun p => 4 + 2 * p.length.toNat).sum := by
  simp only [recordsBytes_length h, ← List.sum_map_mul_left, Nat.mul_add]

section
variable {lower : Bool} {t : Text} {L : Nat}

theorem fdec_of_short (h : L < 24) : fdec lower t L = .error (.raised ⟨.malformedFrame, .short, false, 0⟩) := by
  rw [fdec, if_pos h]

/-- A halt in reading the header's twelve bytes is the decoder's, an error as MalformedFrame outside the properties (R131). -/
theorem fdec_of_header_error {e : Halt Cause} (hlen : 24 ≤ L) (h : readHexBytes lower t 0 12 = .error e) :
    fdec lower t L =
      Calc.mapRaised (fun c => (⟨.malformedFrame, c, false, 0⟩ : ErrReg)) (.error e) := by
  rw [fdec, if_neg (Nat.not_lt.2 hlen), h]
  cases e <;> rfl

/-- After the records of the properties `ps`, the loop goes on to the next property at their end, and its halt is the
loop's, an error with the number of that property as INDEX (R132, R133). -/
theorem pdecList_of_property_error {i cur n : Nat} {ps : List Property} {e : Halt Cause} (hn : ps.length < n)
    (hwf : ∀ p ∈ ps, p.WellFormed) (hle : cur + 2 * (recordsBytes ps).length ≤ L)
    (hspells : Spells lower t cur (recordsBytes ps))
    (h : pdec lower t L (cur + 2 * (recordsBytes ps).length) = .error e) :
    pdecList lower t L i cur n = Calc.mapRaised
      (fun c => (⟨.malformedFrame, c, true, BitVec.ofNat 8 (i + ps.length)⟩ : ErrReg)) (.error e) := by
  induction ps generalizing i cur n with
  | nil =>
    obtain ⟨m, rfl⟩ := Nat.exists_eq_succ_of_ne_zero (Nat.ne_zero_of_lt hn)
    rw [pdecList, show pdec lower t L cur = .error e from h]
    cases e <;> rfl
  | cons p ps ih =>
    obtain ⟨m, rfl⟩ := Nat.exists_eq_succ_of_ne_zero (Nat.ne_zero_of_lt hn)
    obtain ⟨hp, hps⟩ := List.forall_mem_cons.1 hwf
    obtain ⟨hrecord, hrest⟩ := spells_append.1 hspells
    have hlen : (recordsBytes (p :: ps)).length = 2 + p.value.length + (recordsBytes ps).length := by
      rw [recordsBytes, List.length_append, recordBytes_length]
    have hused : 2 * (recordBytes p).length = 4 + 2 * p.value.length := by rw [recordBytes_length]; omega
    have hfirst : pdec lower t L cur = .ok (p, 4 + 2 * p.value.length) :=
      pdec_eq_ok_iff.2 ⟨hp, rfl, by omega, hrecord⟩
    have hcursor : cur + 2 * (recordsBytes (p :: ps)).length =
        cur + (4 + 2 * p.value.length) + 2 * (recordsBytes ps).length := by omega
    have hloop := ih (i := i + 1) (Nat.lt_of_succ_lt_succ hn) hps (hcursor ▸ hle) (hused ▸ hrest) (hcursor ▸ h)
    rw [pdecList, mapRaised_eq_ok_iff.2 hfirst]
    simp only [hloop, List.length_cons, Nat.add_assoc, Nat.add_comm 1]
    cases e <;> rfl

/-- Where the text spells a header and the records of fewer properties than OPC, a halt in decoding the next property is
the decoder's (R132, R133). -/
theorem fdec_of_property_error {h : Header} {ps : List Property} {e : Halt Cause} (hcount : ps.length < h.opc.toNat)
    (hwf : ∀ p ∈ ps, p.WellFormed) (hle : 24 + 2 * (recordsBytes ps).length ≤ L)
    (hspells : Spells lower t 0 (headerBytes h ++ recordsBytes ps))
    (hpdec : pdec lower t L (24 + 2 * (recordsBytes ps).length) = .error e) :
    fdec lower t L = Calc.mapRaised
      (fun c => (⟨.malformedFrame, c, true, BitVec.ofNat 8 ps.length⟩ : ErrReg)) (.error e) := by
  obtain ⟨hheader, hrecords⟩ := spells_append.1 hspells
  have hb : readHexBytes lower t 0 12 = .ok (headerBytes h) := readHexBytes_eq_ok_iff.2 ⟨rfl, hheader⟩
  rw [fdec, if_neg (by omega), mapRaised_eq_ok_iff.2 hb]
  have hloop := pdecList_of_property_error (i := 0) hcount hwf hle (by simpa using hrecords) hpdec
  simp only [headerOf_headerBytes, hloop, Nat.zero_add]
  cases e <;> rfl

end

theorem execFdec_of_raised {s : State} {e : ErrReg}
    (h : fdec s.params.hexInLower (ibufText s) s.inLen.toNat = .error (.raised e)) :
    exec .fdec s = .next (raiseErr s e) :=
  complete_eq_next_iff.2 (.inr ⟨e, h, rfl⟩)

theorem execFdec_of_unwritten {s : State} {l : Loc}
    (h : fdec s.params.hexInLower (ibufText s) s.inLen.toNat = .error (.unwritten l)) :
    exec .fdec s = .fault (.unwritten l) :=
  complete_eq_fault_iff.2 ⟨l, h, rfl⟩

/-- Settles O17: each clause is one halt in reading the header, and FDEC reports it. -/
theorem fdecReportsHeaderErrors : Obligations.FdecReportsHeaderErrors := by
  intro s
  refine ⟨fun hshort => ?_, fun hlen hbad => ?_, fun k hlen hk hnone => ?_⟩
  · exact execFdec_of_raised (fdec_of_short hshort)
  · exact execFdec_of_raised (fdec_of_header_error hlen (readHexBytes_eq_raised_iff.2 ⟨rfl, hbad⟩))
  · rw [← Nat.zero_add k]
    exact execFdec_of_unwritten (fdec_of_header_error hlen (readHexBytes_unwritten hk hnone))

/-- Settles O18: each clause is one halt of the property decoder at the next property's cursor, and FDEC reports it with that
property's index. -/
theorem fdecReportsPropertyErrors : Obligations.FdecReportsPropertyErrors := by
  intro s h ps hcount hwf hspells cur fails hcur
  have hcursor : cur = 24 + 2 * (recordsBytes ps).length := by rw [two_mul_recordsBytes_length hwf]
  have hfdec := fun e => fdec_of_property_error (e := e) hcount hwf (hcursor ▸ hcur) hspells
  rw [← hcursor] at hfdec
  have hraised : ∀ c, pdec s.params.hexInLower (ibufText s) s.inLen.toNat cur = .error (.raised c) →
      exec .fdec s = fails c := fun c hc => execFdec_of_raised (hfdec _ hc)
  have hunwritten : ∀ l, pdec s.params.hexInLower (ibufText s) s.inLen.toNat cur = .error (.unwritten l) →
      exec .fdec s = .fault (.unwritten l) := fun l hl => execFdec_of_unwritten (hfdec _ hl)
  clear_value cur
  refine ⟨fun hshort => ?_, fun hlen hbad => ?_, fun k hlen hk hnone => ?_, fun tag n hlen hhead =>
    ⟨fun hshort => ?_, fun hfits hbad => ?_, fun k hfits hk hnone => ?_⟩⟩
  · exact hraised _ (pdec_of_short (by omega))
  · exact hraised _ (pdec_of_head_error (by omega) (readHexBytes_eq_raised_iff.2 ⟨rfl, hbad⟩))
  · exact hunwritten _ (pdec_of_head_error (by omega) (readHexBytes_unwritten hk hnone))
  · exact hraised _ (pdec_of_short_value (by omega) hhead (by omega))
  · exact hraised _ (pdec_of_value_error hhead (by omega) (readHexBytes_eq_raised_iff.2 ⟨rfl, hbad⟩))
  · exact hunwritten _ (pdec_of_value_error hhead (by omega) (readHexBytes_unwritten hk hnone))

/-! ### The invariant checks -/

/-- Both encoders raise what stops the reading of the held Frame (R137, R138, R139). -/
theorem exec_frameEncoder_raised {i : Instr} {s : State} {e : ErrReg} (hi : i = .fenc ∨ i = .fench)
    (h : heldFrame s = .error (.raised e)) : exec i s = .next (raiseErr s e) := by
  obtain rfl | rfl := hi <;> exact complete_eq_next_iff.2 (.inr ⟨e, h, rfl⟩)

/-- Settles O21: OPC against NPROP first, and then the entries in index order, stop the reading of the held Frame. -/
theorem fencAndFenchCheckInvariants : Obligations.FencAndFenchCheckInvariants := by
  intro i s opc np hi hopc hnp
  refine ⟨fun hne => ?_, fun heq k hk hagree hdiffer => ?_⟩
  · exact exec_frameEncoder_raised hi (heldFrame_eq_raised_iff.2 ⟨opc, np, hopc, hnp, .inl ⟨hne, rfl⟩⟩)
  · have hcheck : checkEntries s.pt 0 np.toNat =
        .error (.raised ⟨.propertyLengthMismatch, .mismatch, true, BitVec.ofNat 8 k⟩) :=
      checkEntries_eq_raised_iff.2 ⟨k, hk, by rw [Nat.zero_add], by simpa using hdiffer, by simpa using hagree⟩
    exact exec_frameEncoder_raised hi (heldFrame_eq_raised_iff.2 ⟨opc, np, hopc, hnp, .inr ⟨heq, hcheck⟩⟩)

/-! ### The normal form of a decoded text -/

theorem normChar_upper_toNat (c : Byte) : (normChar .upper c).toNat =
    if 0x61 ≤ c.toNat ∧ c.toNat ≤ 0x66 then c.toNat - 0x20 else c.toNat := by
  simp only [normChar, BitVec.le_def, BitVec.toNat_ofNat, Nat.reducePow, Nat.reduceMod]
  split
  · rw [BitVec.toNat_sub_of_le (BitVec.le_def.2 (by simp; omega))]
    rfl
  · rfl

theorem normChar_lower_toNat (c : Byte) : (normChar .lower c).toNat =
    if 0x41 ≤ c.toNat ∧ c.toNat ≤ 0x46 then c.toNat + 0x20 else c.toNat := by
  simp only [normChar, BitVec.le_def, BitVec.toNat_ofNat, Nat.reducePow, Nat.reduceMod]
  split
  · rw [BitVec.toNat_add_of_lt (by simp; omega)]
    rfl
  · rfl

/-- A decoded character is a decimal digit or a letter digit of either case, at its distance from the first (R57). -/
theorem hexval_ranges {lower : Bool} {c : Byte} {v : BitVec 4} (h : hexval lower c = some v) :
    (0x30 ≤ c.toNat ∧ c.toNat ≤ 0x39 ∧ v.toNat = c.toNat - 0x30) ∨
    (0x41 ≤ c.toNat ∧ c.toNat ≤ 0x46 ∧ v.toNat = c.toNat - 0x37) ∨
    (0x61 ≤ c.toNat ∧ c.toNat ≤ 0x66 ∧ v.toNat = c.toNat - 0x57) := by
  have hvalue := hexval_toNat lower c
  rw [h, Option.map_some] at hvalue
  split_ifs at hvalue with hdigit hupper hlower <;> rw [Option.some.injEq] at hvalue
  · exact .inl ⟨hdigit.1, hdigit.2, hvalue⟩
  · exact .inr (.inl ⟨hupper.1, hupper.2, hvalue⟩)
  · exact .inr (.inr ⟨hlower.1, hlower.2.1, hvalue⟩)

/-- The digit emitted for a decoded character is that character with a letter in HEX_CASE (R57, R59, R141). -/
theorem hexdigit_of_hexval {lower : Bool} {c : Byte} {v : BitVec 4} (hc : HexCase) (h : hexval lower c = some v) :
    hexdigit hc v = normChar hc c := by
  have hranges := hexval_ranges h
  refine BitVec.eq_of_toNat_eq ?_
  cases hc with
  | upper =>
    rw [hexdigit_upper_toNat, normChar_upper_toNat]
    split_ifs <;> omega
  | lower =>
    rw [hexdigit_lower_toNat, normChar_lower_toNat]
    split_ifs <;> omega

/-- The hex text of the bytes a text spells is that text, character by character, with its letters in HEX_CASE (R141). -/
theorem Spells.hex_eq_normChar {lower : Bool} {t : Text} {p : Nat} {bs : List Byte} (h : Spells lower t p bs)
    (hc : HexCase) {k : Nat} (hk : k < 2 * bs.length) :
    ∃ c, t (p + k) = some c ∧ (hex hc bs)[k]? = some (normChar hc c) := by
  have hj : k / 2 < bs.length := by omega
  have hb : bs[k / 2]? = some bs[k / 2] := List.getElem?_eq_getElem hj
  obtain ⟨hhigh, hlow⟩ := hex_getElem? hc bs (k / 2)
  obtain ⟨c, d, hi, lo, hc1, hd1, hcv, hdv, hbyte⟩ := h _ _ hb
  rw [hb, hbyte, Option.map_some] at hhigh hlow
  rw [hexPair_high, hexdigit_of_hexval hc hcv] at hhigh
  rw [hexPair_low, hexdigit_of_hexval hc hdv] at hlow
  obtain heven | hodd : k = 2 * (k / 2) ∨ k = 2 * (k / 2) + 1 := by omega
  · exact ⟨c, by rw [heven]; exact hc1, by rw [heven]; exact hhigh⟩
  · exact ⟨d, by rw [hodd]; exact hd1, by rw [hodd]; exact hlow⟩

/-- An FDEC that succeeds holds the Frame its text begins with, and has consumed its hex length (R136). -/
theorem exec_fdec_decoded {s t : State} (h : exec .fdec s = .next t) (hok : t.opState = .doneOk) :
    ∃ f, HoldsFrame t f ∧ Spells s.params.hexInLower (ibufText s) 0 (frameBytes f) ∧
      t.consumed.toNat = 2 * (frameBytes f).length := by
  obtain ⟨u, ⟨f, hwf, hle, hspells, rfl⟩, rfl⟩ | ⟨e, -, -, rfl⟩ := exec_next_cases h
  · exact ⟨f, holdsFrame_of_loaded (s := s) hwf rfl rfl, hspells, word_toNat_ofNat_of_le hle⟩
  · simp at hok

theorem get_ibuf_of_ibufText {s : State} {k : Nat} {c : Byte} (h : ibufText s k = some c) :
    Table.get s.ibuf k = some c := by
  unfold ibufText at h
  split at h
  · exact h
  · cases h

/-- H2B converts a text that spells `bs`, and nothing more, to `bs` (R161). -/
theorem exec_h2b_of_spells {s : State} {bs : List Byte} (hlen : s.inLen.toNat = 2 * bs.length)
    (hspells : Spells s.params.hexInLower (ibufText s) 0 bs) :
    exec .h2b s = .next (succeed { writeOut s bs with consumed := s.inLen }) :=
  exec_of_commits (i := .h2b) ⟨bs, hlen, hspells, rfl⟩

/-- Settles O24: the encoders write out the bytes the decoded text spells, whose hex text is its normal form and which H2B gives
back. -/
theorem decodeThenEncodeNormalises : Obligations.DecodeThenEncodeNormalises := by
  intro s t _ h hok
  have hparams : t.params = s.params := (exec_inputsKept h).params
  obtain ⟨f, hheld, hspells, hconsumed⟩ := exec_fdec_decoded h hok
  have hmax := frameBytes_length_le hheld.1
  have hhex := writeOut_frameHex_outLen t hheld.1 t.params.hexCase
  have hbinary : (writeOut t (frameBytes f)).outLen.toNat = (frameBytes f).length := writeOut_outLen_toNat (by omega)
  refine ⟨_, _, exec_fench_of_holds hheld, exec_fenc_of_holds hheld, rfl, rfl,
    BitVec.eq_of_toNat_eq (hhex.trans hconsumed.symm), fun k hk => ?_, fun hcase x hcopy => ?_⟩
  · rw [hconsumed] at hk
    obtain ⟨c, hread, hnorm⟩ := hspells.hex_eq_normChar t.params.hexCase hk
    rw [Nat.zero_add] at hread
    refine ⟨c, get_ibuf_of_ibufText hread, ?_⟩
    rw [succeed_obuf, writeOut_obuf_get, if_pos (hk.trans_eq (hex_length ..).symm), hnorm, hparams]
  · obtain ⟨hinLen, hcopySpells⟩ := hcopy.spells_frame hheld.1 (hparams ▸ hcase)
    refine ⟨_, exec_h2b_of_spells hinLen hcopySpells, rfl, rfl, fun k hk => ?_⟩
    rw [succeed_outLen, hbinary] at hk
    calc Table.get (writeOut x (frameBytes f)).obuf k = (frameBytes f)[k]? := by rw [writeOut_obuf_get, if_pos hk]
      _ = Table.get (writeOut t (frameBytes f)).obuf k := by rw [writeOut_obuf_get, if_pos hk]

/-! ### What FDEC leaves unchanged -/

/-- Settles O39: a success loads FR and PT, where the load keeps the entries from OPC on, and VAL from each declared length on. -/
theorem fdecFrame : Obligations.FdecFrame := by
  intro s t h
  obtain ⟨u, ⟨f, ⟨hcount, hwf⟩, -, -, rfl⟩, rfl⟩ | ⟨e, -, -, rfl⟩ := exec_next_cases h
  · refine ⟨rfl, fun herr => by simp at herr, fun _ => ⟨f.header.opc, rfl, rfl, fun i hi => ?_, fun i hi => ?_⟩,
      fun _ => rfl, fun _ => rfl⟩ <;> rw [succeed_pt, ptEntry_overwrite_loaded]
    · rw [List.getElem?_eq_none (hcount ▸ hi)]
    · rw [List.getElem?_eq_getElem (hcount ▸ hi)]
      refine ⟨_, rfl, rfl, fun j hj => ?_⟩
      have hlen := hwf _ (List.getElem_mem (hcount ▸ hi))
      exact (load_val _ _ j).trans (if_neg (by omega))
  · exact ⟨rfl, fun _ => ⟨rfl, rfl, rfl⟩, fun hok => by simp at hok, fun _ => rfl, fun _ => rfl⟩

end Sys2Proof.Machine
end

section
/-! The payload conversions (42_payload.md): H2B's outcomes in the order of R192 and B2H's, each conversion run on the other's output,
and what they leave unchanged. -/

namespace Sys2Proof.Machine

/-! ### The output of a conversion -/

theorem writeOut_obuf_get_of_getElem? (s : State) {bs : List Byte} {k : Nat} {b : Byte} (h : bs[k]? = some b) :
    Table.get (writeOut s bs).obuf k = some b := by
  rw [writeOut_obuf_get, if_pos (List.getElem?_eq_some_iff.1 h).1, h]

theorem writeOut_obuf_get_beyond (s : State) {bs : List Byte} {k : Nat} (h : bs.length ≤ k) :
    Table.get (writeOut s bs).obuf k = Table.get s.obuf k := by
  rw [writeOut_obuf_get, if_neg (Nat.not_lt.2 h)]

/-- The same bytes written out from two states are the same output, whatever OBUF held (R54). -/
theorem writeOut_obuf_get_congr (s t : State) {bs : List Byte} {k : Nat} (hk : k < (writeOut s bs).outLen.toNat) :
    Table.get (writeOut t bs).obuf k = Table.get (writeOut s bs).obuf k := by
  have hlt : k < bs.length := hk.trans_le (word_toNat_ofNat_le bs.length)
  rw [writeOut_obuf_get, writeOut_obuf_get, if_pos hlt, if_pos hlt]

theorem word_ofNat_of_toNat_eq {w : Word} {n : Nat} (h : w.toNat = n) : BitVec.ofNat 32 n = w := by
  rw [← h, BitVec.ofNat_toNat, BitVec.setWidth_eq]

/-- A conversion that writes out `bs` and consumes its input succeeds with OUT_LEN = `|bs|` and `OBUF[0..|bs|) = bs`, and leaves
OBUF beyond unchanged (R54, R161, R162). -/
theorem exec_converts {i : Instr} {s : State} {bs : List Byte} {n : Nat}
    (h : exec i s = .next (succeed { writeOut s bs with consumed := s.inLen })) (hn : bs.length = n) (hfits : n < 2 ^ 32) :
    ∃ t, exec i s = .next t ∧ t.opState = .doneOk ∧ t.err = .zero ∧ t.outLen.toNat = n ∧ t.consumed = s.inLen ∧
      (∀ k b, bs[k]? = some b → Table.get t.obuf k = some b) ∧
      ∀ k, n ≤ k → Table.get t.obuf k = Table.get s.obuf k := by
  subst hn
  exact ⟨_, h, rfl, rfl, writeOut_outLen_toNat (s := s) hfits, rfl, fun _ _ => writeOut_obuf_get_of_getElem? s,
    fun _ => writeOut_obuf_get_beyond s⟩

/-! ### H2B -/

/-- On a text of even length H2B stops at its first unwritten character, where every character before it is a digit (R44, R161). -/
theorem textBytes_unwritten {lower : Bool} {t : Text} {L k : Nat} (heven : L % 2 = 0) (hk : k < L)
    (h : FirstUnwrittenAt lower t 0 k) : textBytes lower t L = .error (.unwritten (.ibuf k)) := by
  rw [textBytes, if_neg (by omega), readHexBytes_unwritten (by omega) h, Nat.zero_add]
  rfl

theorem execH2b_of_raised {s : State} {e : ErrReg}
    (h : textBytes s.params.hexInLower (ibufText s) s.inLen.toNat = .error (.raised e)) :
    exec .h2b s = .next (raiseErr s e) :=
  complete_eq_next_iff.2 (.inr ⟨e, h, rfl⟩)

theorem execH2b_of_unwritten {s : State} {l : Loc}
    (h : textBytes s.params.hexInLower (ibufText s) s.inLen.toNat = .error (.unwritten l)) :
    exec .h2b s = .fault (.unwritten l) :=
  complete_eq_fault_iff.2 ⟨l, h, rfl⟩

theorem exec_h2b_succeeded {s t : State} (h : exec .h2b s = .next t) (hok : t.opState = .doneOk) :
    ∃ bs, s.inLen.toNat = 2 * bs.length ∧ Spells s.params.hexInLower (ibufText s) 0 bs ∧
      t = succeed { writeOut s bs with consumed := s.inLen } := by
  obtain ⟨u, ⟨bs, hlen, hspells, rfl⟩, rfl⟩ | ⟨e, -, -, rfl⟩ := exec_next_cases h
  · exact ⟨bs, hlen, hspells, rfl⟩
  · simp at hok

/-- Settles O25: H2B writes out the bytes its text spells, and otherwise halts as the reading of the text does. -/
theorem h2bConverts : Obligations.H2bConverts := by
  refine ⟨decode_encode .h2b, fun s => ⟨fun bs hlen hspells => ?_, fun hodd => ?_, fun heven hbad => ?_,
    fun k heven hk hnone => ?_⟩⟩
  · exact exec_converts (exec_h2b_of_spells hlen hspells) rfl (by omega)
  · exact execH2b_of_raised (textBytes_eq_raised_iff.2 (.inl ⟨hodd, rfl⟩))
  · exact execH2b_of_raised (textBytes_eq_raised_iff.2 (.inr ⟨heven, hbad, rfl⟩))
  · exact execH2b_of_unwritten (textBytes_unwritten heven hk hnone)

/-! ### B2H -/

theorem ibufText_of_lt {s : State} {k : Nat} (h : k < s.params.ibufSize) : ibufText s k = Table.get s.ibuf k :=
  if_pos h

/-- B2H writes out the hex text of `IBUF[0..IN_LEN)` (R162). -/
theorem exec_b2h_of_written {s : State} {bs : List Byte} (hlen : s.inLen.toNat = bs.length)
    (hbytes : ∀ k b, bs[k]? = some b → ibufText s k = some b) :
    exec .b2h s = .next (succeed { writeOut s (hex s.params.hexCase bs) with consumed := s.inLen }) :=
  exec_of_commits (i := .b2h) ⟨bs, hlen, hbytes, rfl⟩

/-- B2H has no error: where it completes, its input bytes are written (R162). -/
theorem exec_b2h_next {s t : State} (h : exec .b2h s = .next t) :
    ∃ bs, s.inLen.toNat = bs.length ∧ (∀ k b, bs[k]? = some b → ibufText s k = some b) ∧
      t = succeed { writeOut s (hex s.params.hexCase bs) with consumed := s.inLen } := by
  obtain ⟨u, ⟨bs, hlen, hbytes, rfl⟩, rfl⟩ | ⟨e, hmay, hcode, -⟩ := exec_next_cases h
  · exact ⟨bs, hlen, hbytes, rfl⟩
  · obtain rfl | hfalse := hmay
    · exact absurd rfl hcode
    · exact hfalse.elim

theorem exec_b2h_faults_iff {s : State} :
    (∃ l, exec .b2h s = .fault (.unwritten l)) ↔ ∃ k, k < s.inLen.toNat ∧ ibufText s k = none := by
  have hreads := needAll_faults_iff (ε := ErrReg) (loc := Loc.ibuf) (read := ibufText s) (j := 0) (n := s.inLen.toNat)
  simp only [Nat.zero_add] at hreads
  simp only [← hreads, exec, execB2h, complete_eq_fault_iff, Fault.unwritten.injEq, exists_eq_right', Calc.Faults]

/-- Settles O26: within IBUF_SIZE the input text is IBUF; B2H writes out its hex text, or stops on an unwritten byte. -/
theorem b2hConverts : Obligations.B2hConverts := by
  refine ⟨decode_encode .b2h, fun s ⟨_, hsize⟩ hin => ⟨fun bs hlen hbytes => ?_, fun ⟨k, hk, hnone⟩ => ?_⟩⟩
  · have hread : ∀ k b, bs[k]? = some b → ibufText s k = some b := fun k b hb => by
      have hk : k < bs.length := (List.getElem?_eq_some_iff.1 hb).1
      rw [ibufText_of_lt (by omega), hbytes k b hb]
    exact exec_converts (exec_b2h_of_written hlen.symm hread) (by rw [hex_length, hlen]) (by omega)
  · exact exec_b2h_faults_iff.2 ⟨k, hk, (ibufText_of_lt (hk.trans_le hin)).trans hnone⟩

/-! ### One conversion run on the other's output -/

/-- H2B on a copy of the hex text of `bs` writes out `bs`, if the letter cases agree (R163). -/
theorem CopiedOut.exec_h2b {s u : State} {bs : List Byte} (hfits : 2 * bs.length < 2 ^ 32) (hcase : CasesAgree s.params)
    (h : CopiedOut (succeed (writeOut s (hex s.params.hexCase bs))) u) :
    exec .h2b u = .next (succeed { writeOut u bs with consumed := u.inLen }) := by
  have ⟨_, _, hinLen, _⟩ := h
  refine exec_h2b_of_spells ?_ (h.spells hfits hcase)
  rw [hinLen, succeed_outLen, writeOut_outLen_toNat (by rwa [hex_length]), hex_length]

/-- B2H on a copy of the bytes `bs` writes out their hex text (R163). -/
theorem CopiedOut.exec_b2h {s u : State} {bs : List Byte} (hfits : bs.length < 2 ^ 32)
    (h : CopiedOut (succeed (writeOut s bs)) u) :
    exec .b2h u = .next (succeed { writeOut u (hex s.params.hexCase bs) with consumed := u.inLen }) := by
  have ⟨_, hparams, hinLen, _⟩ := h
  have houtLen : (writeOut s bs).outLen.toNat = bs.length := writeOut_outLen_toNat hfits
  have hread : ∀ k b, bs[k]? = some b → ibufText u k = some b := fun k b hb => by
    have hk : k < bs.length := (List.getElem?_eq_some_iff.1 hb).1
    rw [h.ibufText_eq (hk.trans_eq houtLen.symm), succeed_obuf, writeOut_obuf_get_of_getElem? s hb]
  rw [exec_b2h_of_written (by rw [hinLen, succeed_outLen, houtLen]) hread, hparams, succeed_params, writeOut_params]

theorem exec_fenc_succeeded {s t : State} (h : exec .fenc s = .next t) (hok : t.opState = .doneOk) :
    ∃ f, HoldsFrame s f ∧ t = succeed (writeOut s (frameBytes f)) := by
  obtain ⟨u, ⟨f, hheld, rfl⟩, rfl⟩ | ⟨e, -, -, rfl⟩ := exec_next_cases h
  · exact ⟨f, hheld, rfl⟩
  · simp at hok

/-- B2H and then H2B give the bytes back (R163). -/
theorem exec_h2b_of_exec_b2h {s t u : State} (hparams : s.params.WellFormed) (hcase : CasesAgree s.params)
    (hin : s.inLen.toNat ≤ s.params.ibufSize) (h : exec .b2h s = .next t) (hcopy : CopiedOut t u) :
    ∃ v, exec .h2b u = .next v ∧ v.opState = .doneOk ∧ v.outLen = s.inLen ∧
      ∀ k, k < s.inLen.toNat → Table.get v.obuf k = Table.get s.ibuf k := by
  obtain ⟨bs, hlen, hbytes, rfl⟩ := exec_b2h_next h
  have hsize := hparams.2
  refine ⟨_, hcopy.exec_h2b (s := s) (by omega) hcase, rfl, word_ofNat_of_toNat_eq hlen, fun k hk => ?_⟩
  have hb : bs[k]? = some bs[k] := List.getElem?_eq_getElem (hk.trans_eq hlen)
  exact (writeOut_obuf_get_of_getElem? u hb).trans (get_ibuf_of_ibufText (hbytes k _ hb)).symm

/-- H2B and then B2H give back the text with its letters in HEX_CASE (R163). -/
theorem exec_b2h_of_exec_h2b {s t u : State} (h : exec .h2b s = .next t) (hok : t.opState = .doneOk)
    (hcopy : CopiedOut t u) :
    ∃ v, exec .b2h u = .next v ∧ v.opState = .doneOk ∧ v.outLen = s.inLen ∧
      ∀ k, k < s.inLen.toNat → ∃ c, Table.get s.ibuf k = some c ∧
        Table.get v.obuf k = some (normChar s.params.hexCase c) := by
  obtain ⟨bs, hlen, hspells, rfl⟩ := exec_h2b_succeeded h hok
  refine ⟨_, hcopy.exec_b2h (s := s) (by omega), rfl, word_ofNat_of_toNat_eq (hlen.trans (hex_length ..).symm),
    fun k hk => ?_⟩
  obtain ⟨c, hread, hnorm⟩ := hspells.hex_eq_normChar s.params.hexCase (hk.trans_eq hlen)
  rw [Nat.zero_add] at hread
  exact ⟨c, get_ibuf_of_ibufText hread, writeOut_obuf_get_of_getElem? u hnorm⟩

/-- Settles O27: what one conversion writes out is what the other reads back, and FENC and FENCH write out one Frame's bytes and
their hex text. -/
theorem payloadLaws : Obligations.PayloadLaws := by
  intro s hparams hcase hin
  refine ⟨fun t u => exec_h2b_of_exec_b2h hparams hcase hin, fun t u => exec_b2h_of_exec_h2b, fun t h hok => ?_⟩
  obtain ⟨f, hheld, rfl⟩ := exec_fenc_succeeded h hok
  have hmax := frameBytes_length_le hheld.1
  refine ⟨_, exec_fench_of_holds hheld, rfl, fun u hcopy => ?_, fun u hcopy => ?_⟩
  · exact ⟨_, hcopy.exec_h2b (by omega) hcase, rfl, rfl, fun _ => writeOut_obuf_get_congr s u⟩
  · exact ⟨_, hcopy.exec_b2h (by omega), rfl, rfl, fun _ => writeOut_obuf_get_congr s u⟩

/-! ### What H2B and B2H leave unchanged -/

/-- A conversion commits one output, of at most two bytes for each byte of its input, and CONSUMED (R161, R162). -/
theorem commits_converter {i : Instr} {s u : State} (h : Commits i s u) (hi : i ∈ [Instr.h2b, .b2h]) :
    ∃ bs : List Byte, bs.length ≤ 2 * s.inLen.toNat ∧ u = { writeOut s bs with consumed := s.inLen } := by
  cases i with
  | h2b =>
    obtain ⟨bs, hlen, -, rfl⟩ := h
    exact ⟨_, by omega, rfl⟩
  | b2h =>
    obtain ⟨bs, hlen, -, rfl⟩ := h
    exact ⟨_, by rw [hex_length, hlen], rfl⟩
  | pchk | pdec | penc | pench | fdec | fenc | fench | clr => simp at hi

/-- Settles O41: a success writes out one output, which fits OUT_LEN under the invariant and keeps OBUF from there on. -/
theorem converterFrame : Obligations.ConverterFrame := by
  intro i s t hinv hi h
  obtain ⟨u, hu, rfl⟩ | ⟨e, -, -, rfl⟩ := exec_next_cases h
  · obtain ⟨bs, hle, rfl⟩ := commits_converter hu hi
    have hsize := hinv.params.2
    have hin := hinv.inLen
    have hlen : (writeOut s bs).outLen.toNat = bs.length := writeOut_outLen_toNat (by omega)
    exact ⟨rfl, fun herr => by simp at herr, fun _ => rfl,
      fun k hk => writeOut_obuf_get_beyond s (hlen.symm.trans_le (hk rfl))⟩
  · exact ⟨rfl, fun _ => ⟨rfl, rfl⟩, fun _ => rfl, fun _ _ => rfl⟩

end Sys2Proof.Machine
end

section
/-! Control (43_control.md): the completion of an illegal op code as the engine's whole step, and CLR's outcome. -/

namespace Sys2Proof.Machine

/-! ### Illegal op codes -/

/-- The engine's turn while BUSY with an illegal op code raises IllegalOp (R176) and is used up if it was listed. -/
theorem step_of_illegal {s : State} {e : DecodeError} (hbusy : s.opState = .busy)
    (hdecode : decode s.pendingOp = .error e) (hturn : turnTaken s = .engine) :
    step s = .next (raiseErr { s with turns := s.turns.tail } ⟨.illegalOp, .none, false, 0⟩) := by
  rw [step_of_engineTurn hturn]
  exact engineStep_of_illegal (s := { s with turns := s.turns.tail }) hbusy hdecode

/-- Settles O5: the completion raises IllegalOp, whose ERR word is its CODE alone, and the write of the op code is an issue. -/
theorem illegalOpCompletion : Obligations.IllegalOpCompletion := by
  refine ⟨fun s e => step_of_illegal, by decide, fun s b e _ hidle => ?_⟩
  rw [hostWrite_cmd hidle, issue_herr]

/-! ### CLR -/

/-- Settles O28: CLR commits HERR = 0 alone, and its success sets STATE and ERR. -/
theorem clrClears : Obligations.ClrClears :=
  fun _ => exec_of_commits (i := .clr) rfl

end Sys2Proof.Machine
end

section
/-! Error reporting (60_exceptions.md): what an error completion writes (R190), the reports of each operation (R188, R189), and the
completion of an operation after a host write refused while BUSY (R193). -/

namespace Sys2Proof.Machine

/-! ### The completion PENDING_OP names -/

theorem completePending_of_decode {s : State} {i : Instr} (hdecode : decode s.pendingOp = .ok i) :
    completePending s = exec i s := by
  rw [completePending, hdecode]

/-- The completion of an illegal op code raises IllegalOp (R176). -/
theorem completePending_of_illegal {s : State} {e : DecodeError} (hdecode : decode s.pendingOp = .error e) :
    completePending s = .next (raiseErr s ⟨.illegalOp, .none, false, 0⟩) := by
  rw [completePending, hdecode]
  rfl

/-! ### Precise errors -/

/-- An operation that ends in DONE_ERR has raised an error (R190). -/
theorem exec_eq_raiseErr {i : Instr} {s t : State} (h : exec i s = .next t) (herr : t.opState = .doneErr) :
    t = raiseErr s t.err ∧ t.err.code ≠ .none := by
  obtain ⟨u, -, rfl⟩ | ⟨e, -, hcode, rfl⟩ := exec_next_cases h
  · simp at herr
  · exact ⟨rfl, hcode⟩

/-- Settles O29: DONE_ERR is reached only by raising, and an illegal op code raises IllegalOp. -/
theorem errorCompletionIsPrecise : Obligations.ErrorCompletionIsPrecise := by
  refine ⟨fun i s t => exec_eq_raiseErr, fun s t h herr => ?_⟩
  cases hdecode : decode s.pendingOp with
  | ok i => exact exec_eq_raiseErr (completePending_of_decode hdecode ▸ h) herr
  | error e =>
    rw [completePending_of_illegal hdecode] at h
    cases h
    exact ⟨rfl, by simp⟩

/-! ### The reports of each operation -/

theorem errWord_zero : errWord .zero = 0 := by decide

/-- Settles O30: a commit clears ERR, and what an operation may raise has the numbers of its row. -/
theorem outcomeTable : Obligations.OutcomeTable := by
  refine ⟨fun s e hdecode => ⟨_, completePending_of_illegal hdecode, rfl, rfl⟩, fun i s t h => ?_⟩
  obtain ⟨u, -, rfl⟩ | ⟨e, rfl | hrow, hcode, rfl⟩ := exec_next_cases h
  · exact .inl ⟨rfl, errWord_zero⟩
  · exact absurd rfl hcode
  · refine .inr ⟨rfl, ?_⟩
    rw [raiseErr_err]
    cases i with
    | pchk | penc | pench =>
      obtain rfl := hrow
      decide
    | pdec | h2b => obtain rfl | rfl := hrow <;> decide
    | fdec =>
      obtain ⟨hmalformed, hcause, -⟩ := hrow
      obtain hcause | hcause := hcause <;> cases e.inprop <;>
        simp [hmalformed, hcause, ErrCode.bits, Cause.bits]
    | fenc | fench =>
      obtain rfl | ⟨hlength, hcause, hin⟩ := hrow
      · decide
      · simp [hlength, hcause, hin, ErrCode.bits, Cause.bits]
    | b2h | clr => exact hrow.elim

/-- Where a report locates its error: only the frame operations name a property by its index (R188). -/
theorem mayReport_location {i : Instr} {e : ErrReg} (h : MayReport i e) :
    (e.inprop = false → e.index = 0) ∧ (e.inprop = true → i = .fdec ∨ i = .fenc ∨ i = .fench) := by
  obtain rfl | hrow := h
  · exact ⟨fun _ => rfl, fun hin => by cases hin⟩
  · cases i with
    | pchk | penc | pench =>
      obtain rfl := hrow
      simp
    | pdec | h2b => obtain rfl | rfl := hrow <;> simp
    | fdec =>
      obtain ⟨-, -, hindex⟩ := hrow
      exact ⟨hindex, fun _ => .inl rfl⟩
    | fenc | fench =>
      obtain rfl | ⟨-, -, hin⟩ := hrow
      · simp
      · simp [hin]
    | b2h | clr => exact hrow.elim

/-- Settles O31: a commit clears ERR, and a raised error locates its property as the operation may. -/
theorem indexNeedsInprop : Obligations.IndexNeedsInprop := by
  intro i s t h
  obtain ⟨u, -, rfl⟩ | ⟨e, hmay, -, rfl⟩ := exec_next_cases h
  · exact mayReport_location (.inl rfl)
  · exact mayReport_location hmay

/-! ### A refused access before the completion -/

/-- An outcome with HERR set in its next state, as a refused access sets it (R38). -/
def outcomeRefused (o : Host.Outcome State Fault Refusal) : Host.Outcome State Fault Refusal :=
  match o with
  | .next t => .next (refuseAccess t)
  | .fault f => .fault f
  | .refused r => .refused r

/-- A completion carries a refusal along where its destinations keep HERR. -/
theorem complete_refuseAccess {α : Type} {s : State} {c : Calc ErrReg α} {v w : α → State}
    (hw : ∀ a, v a = refuseAccess (w a)) :
    complete (refuseAccess s) c v = outcomeRefused (complete s c w) := by
  rcases c with (e | l) | a
  · rfl
  · rfl
  · rw [complete, hw]
    rfl

/-- No operation reads HERR, and no operation but CLR writes it. -/
theorem exec_refuseAccess {i : Instr} (hi : i ≠ .clr) (s : State) :
    exec i (refuseAccess s) = outcomeRefused (exec i s) := by
  cases i with
  | pchk | pdec | penc | pench | fdec | fenc | fench | h2b | b2h => exact complete_refuseAccess fun _ => rfl
  | clr => exact absurd rfl hi

/-- Settles O36: a write while BUSY is refused, and the operation carries the refusal along. -/
theorem refusedWriteDoesNotAlterOutcome : Obligations.RefusedWriteDoesNotAlterOutcome := by
  intro i s l v hbusy hi
  rw [hostWrite_refused (.inl hbusy), exec_refuseAccess hi]
  cases exec i s <;> rfl

end Sys2Proof.Machine
end

section
/-! Reset (70_reset_and_hazards.md): the reset input's step (R215, R217), and the operations issued straight after reset (R219). -/

namespace Sys2Proof
namespace Machine

/-! ### The reset input -/

/-- A listed reset turn is the reset input, whatever STATE is (R215, R217). -/
theorem step_of_resetTurn {s : State} {ts : List Turn} (hturns : s.turns = .reset :: ts) :
    step s = .next (resetInput { s with turns := ts }) := by
  simp only [step, hturns, takeTurn]

/-! ### The operations straight after reset -/

/-- FENC reads OPC before any other field (R137), and stops where it is unwritten (R44). -/
theorem exec_fenc_of_opc_unwritten {s : State} (h : s.fr.opc = none) : exec .fenc s = .fault (.unwritten (.fr .opc)) := by
  have hheld : heldFrame s = .error (.unwritten (.fr .opc)) := by
    rw [heldFrame, h]
    rfl
  exact complete_eq_fault_iff.2 ⟨_, hheld, rfl⟩

/-- Settles O9: IN_LEN = 0 is too short for both decoders and spells the empty payload for both conversions, and OPC is
unwritten. -/
theorem operationsAfterReset : Obligations.OperationsAfterReset := by
  intro p s
  have hinLen : s.inLen.toNat = 0 := rfl
  refine ⟨?_, ?_, ?_, ?_, ?_⟩
  · exact execPdec_of_raised (pdec_of_short (by omega))
  · exact execFdec_of_raised (fdec_of_short (by omega))
  · exact exec_h2b_of_spells (bs := []) hinLen (spells_nil 0)
  · exact exec_b2h_of_written (bs := []) hinLen (by simp)
  · exact exec_fenc_of_opc_unwritten rfl

end Machine

/-- Settles O8: the step is the reset input, and the reset states agree on all that it sets. (In `Sys2Proof.Machine` the name is
the model's operation.) -/
theorem resetInput : Obligations.ResetInput :=
  fun _ _ hturns => Machine.step_of_resetTurn hturns

end Sys2Proof
end
